-- ==== Sys2Proof/Word.lean ====
section
/-! DEFINITION. The words of the core: bytes, 16-bit words, 12-bit addresses, register numbers and the key latch. -/

namespace Sys2Proof

/-- A data byte: the V registers, the timers and the bytes of memory (00_scope.md R3). -/
abbrev Byte := BitVec 8

/-- A 16-bit word: an opcode word, `I`, `pc`, a return address (00_scope.md R9). -/
abbrev Word := BitVec 16

/-- The 12-bit address field `nnn` of an opcode word (00_scope.md R17). -/
abbrev Addr12 := BitVec 12

/-- A register number, 0..15, naming V0..VF (00_scope.md R17, 10_state.md R31). -/
abbrev Reg := Fin 16

/-- V0, the fixed offset register of Bnnn (41_control_flow.md R103). -/
abbrev v0 : Reg := 0

/-- VF, general register and flag output (10_state.md R32). -/
abbrev vf : Reg := 15

/-- The input latch: sixteen key states indexed by key code (10_state.md R43). -/
abbrev KeyLatch := Vector Bool 16

/-- `zext_16` of 00_scope.md R12: zero extension to 16 bits. -/
abbrev zext16 {n : Nat} (b : BitVec n) : Word := b.setWidth 16

end Sys2Proof
end

