-- ==== Sys2Proof/Syntax.lean ====
section
/-! DEFINITION. The 34 instructions of the opcode map (30_encoding.md R90), one constructor per row. -/

namespace Sys2Proof

/-- An instruction with its decoded operands (30_encoding.md R81, R82, R90). A register number and a constant
are of a type that holds the legal values only; the row count of Dxyn is a number, bounded by `WellFormed`. -/
inductive Instr where
  /-- `00E0` CLS (44_display.md R160). -/
  | cls
  /-- `00EE` RET (41_control_flow.md R100). -/
  | ret
  /-- `1nnn` JP nnn (41_control_flow.md R101). -/
  | jp (nnn : Addr12)
  /-- `2nnn` CALL nnn (41_control_flow.md R102). -/
  | call (nnn : Addr12)
  /-- `3xnn` SE Vx, nn (41_control_flow.md R104). -/
  | seImm (x : Reg) (nn : Byte)
  /-- `4xnn` SNE Vx, nn (41_control_flow.md R105). -/
  | sneImm (x : Reg) (nn : Byte)
  /-- `5xy0` SE Vx, Vy (41_control_flow.md R106). -/
  | seReg (x y : Reg)
  /-- `6xnn` LD Vx, nn (42_alu.md R120). -/
  | ldImm (x : Reg) (nn : Byte)
  /-- `7xnn` ADD Vx, nn (42_alu.md R121). -/
  | addImm (x : Reg) (nn : Byte)
  /-- `8xy0` LD Vx, Vy (42_alu.md R123). -/
  | ldReg (x y : Reg)
  /-- `8xy1` OR Vx, Vy (42_alu.md R124). -/
  | orReg (x y : Reg)
  /-- `8xy2` AND Vx, Vy (42_alu.md R125). -/
  | andReg (x y : Reg)
  /-- `8xy3` XOR Vx, Vy (42_alu.md R126). -/
  | xorReg (x y : Reg)
  /-- `8xy4` ADD Vx, Vy (42_alu.md R127). -/
  | addReg (x y : Reg)
  /-- `8xy5` SUB Vx, Vy (42_alu.md R128). -/
  | sub (x y : Reg)
  /-- `8xy6` SHR Vx; y is encoded and not read (42_alu.md R129). -/
  | shr (x y : Reg)
  /-- `8xy7` SUBN Vx, Vy (42_alu.md R130). -/
  | subn (x y : Reg)
  /-- `8xyE` SHL Vx; y is encoded and not read (42_alu.md R131). -/
  | shl (x y : Reg)
  /-- `9xy0` SNE Vx, Vy (41_control_flow.md R107). -/
  | sneReg (x y : Reg)
  /-- `Annn` LD I, nnn (43_index_memory.md R140). -/
  | ldI (nnn : Addr12)
  /-- `Bnnn` JP V0, nnn (41_control_flow.md R103). -/
  | jpV0 (nnn : Addr12)
  /-- `Cxnn` RND Vx, nn (42_alu.md R135). -/
  | rnd (x : Reg) (nn : Byte)
  /-- `Dxyn` DRW Vx, Vy, n (44_display.md R162). -/
  | drw (x y : Reg) (n : Nat)
  /-- `Ex9E` SKP Vx (45_keys_timers.md R170). -/
  | skp (x : Reg)
  /-- `ExA1` SKNP Vx (45_keys_timers.md R171). -/
  | sknp (x : Reg)
  /-- `Fx07` LD Vx, DT (45_keys_timers.md R172). -/
  | ldVxDt (x : Reg)
  /-- `Fx0A` LD Vx, K (45_keys_timers.md R173). -/
  | ldVxK (x : Reg)
  /-- `Fx15` LD DT, Vx (45_keys_timers.md R174). -/
  | ldDtVx (x : Reg)
  /-- `Fx18` LD ST, Vx (45_keys_timers.md R175). -/
  | ldStVx (x : Reg)
  /-- `Fx1E` ADD I, Vx (43_index_memory.md R141). -/
  | addI (x : Reg)
  /-- `Fx29` LD F, Vx (43_index_memory.md R142). -/
  | ldF (x : Reg)
  /-- `Fx33` LD B, Vx (43_index_memory.md R143). -/
  | ldB (x : Reg)
  /-- `Fx55` LD [I], Vx (43_index_memory.md R144). -/
  | ldStore (x : Reg)
  /-- `Fx65` LD Vx, [I] (43_index_memory.md R145). -/
  | ldLoad (x : Reg)
deriving DecidableEq, Repr

end Sys2Proof
end

