-- ==== Sys2Proof/Config.lean ====
section
/-! DEFINITION. The parameters of the core (00_scope.md R9, R10) and the free values of the model: what the
environment chooses and the spec does not fix. The default bytes of `FONT` stand in Machine/Memory.lean. -/

namespace Sys2Proof

/-- `MEM_SIZE`: the number of bytes of memory (00_scope.md R9). -/
abbrev Config.memSize : Nat := 0x1000

/-- The number of bytes of the font region [0x000, 0x050) (00_scope.md R9). -/
abbrev Config.fontSize : Nat := 0x50

/-- `PROG_BASE`: where a program image is loaded (00_scope.md R9). -/
abbrev Config.progBase : Nat := 0x200

/-- `PROG_MAX`: the longest program image, in bytes (00_scope.md R9). -/
abbrev Config.progMax : Nat := 3584

/-- `STACK_DEPTH`: the number of return-address slots (00_scope.md R9). -/
abbrev Config.stackDepth : Nat := 16

/-- The two values the parameter `RAND_RANGE` may take (00_scope.md R10, 92_eei_decisions.md D6). -/
inductive RandRange where
  /-- {0..255}, the default. -/
  | zeroTo255
  /-- {1..255}, which reproduces the reference build. -/
  | oneTo255
deriving DecidableEq, Repr, Inhabited

/-- The parameter `RAND_RANGE` of this machine. No body: a statement about the model holds for both ranges
(log entry 5, safe). -/
opaque Config.randRange : RandRange

/-- The key latch of the n-th step when the host has chosen none in advance: a free value (10_state.md R43;
log entry 2, safe). -/
opaque Config.hostKeys : Nat → KeyLatch

/-- The raw random byte of the n-th step when the environment has chosen none in advance: a free value
(10_state.md R44; log entry 3, safe). -/
opaque Config.hostDraw : Nat → Byte

end Sys2Proof
end

