-- ==== Sys2Proof/Machine/State.lean ====
section
/-! DEFINITION. The state of the core as plain data (10_state.md R30), the execution errors (60_exceptions.md R200)
and the state after construction (70_reset_and_hazards.md R230). -/

namespace Sys2Proof.Machine

/-- Memory: cells in strictly rising address order, none of them holding what an unlisted address reads as
(Machine/Memory.lean says what that is; 20_memory.md R60). -/
abbrev Memory := List Host.Cell

/-- The framebuffer: 32 rows of 64 one-bit pixels. Bit x of row y is the pixel `FB[y][x]` (10_state.md R42;
log entry 10). -/
abbrev Framebuffer := Vector (BitVec 64) 32

/-- `StepReport` (10_state.md R50). -/
structure StepReport where
  /-- True exactly when the step executed 00E0 or Dxyn. -/
  framebufferChanged : Bool
  /-- True exactly when the step's timer update took `ST` from 1 to 0. -/
  beepEdge : Bool
deriving DecidableEq, Repr

/-- What the environment supplies to one step: the latch snapshot (10_state.md R43) and the raw random byte from
which the step's draw is taken (10_state.md R44). -/
structure HostInput where
  keys : KeyLatch
  rawDraw : Byte
deriving DecidableEq, Repr

/-- The state. The first nine fields are the record of 10_state.md R30. The last three hold what the spec makes
inputs and outputs of a step: `report` is the report of the last completed step (log entry 4); `inputs` are the
inputs the host has already chosen for the coming steps, next one first (log entry 2); `inputSeq` numbers the
free values that stand for inputs nobody has chosen (log entry 3). -/
structure State where
  /-- `mem` (R30, 20_memory.md R60). -/
  mem : Memory
  /-- `V[0..15]` (R31). -/
  v : Vector Byte 16
  /-- `I`, never masked to 12 bits (R34). -/
  i : Word
  /-- `pc` (R35). -/
  pc : Word
  /-- `S[0..15]`, return addresses (R37). -/
  stack : Vector Word 16
  /-- `sp`, 0..16, the next free slot (R37). -/
  sp : Fin 17
  /-- `DT` (R39). -/
  dt : Byte
  /-- `ST` (R40). -/
  st : Byte
  /-- `FB` (R42). -/
  fb : Framebuffer
  /-- The report of the last completed step (R50). -/
  report : StepReport
  /-- Inputs already chosen by the host, next one first (R43, R44). -/
  inputs : List HostInput
  /-- The number of the next step's free input. -/
  inputSeq : Nat
deriving DecidableEq, Repr

/-- The execution errors a step can return (60_exceptions.md R200). The step that raises one changes nothing
(R203) and control passes to the host (R204). All six are the spec's own, so raising one is safe. -/
inductive Fault where
  /-- Code 1. Raised by decode: no row of the opcode table matches the fetched word `w`. Safe. -/
  | unknownOpcode (w : Word)
  /-- Code 2. Raised by 2nnn when `sp == 16`. Safe. -/
  | stackOverflow
  /-- Code 3. Raised by 00EE when `sp == 0`. Safe. -/
  | stackUnderflow
  /-- Code 4. Raised by Fx29 when `V[x] > 0xF`; carries the value of Vx. Safe. -/
  | invalidSpriteIndex (v : Byte)
  /-- Code 5. Raised by the fetch, Dxyn, Fx33, Fx55 and Fx65; carries the lowest out-of-range address. Safe. -/
  | memoryOutOfRange (a : Word)
  /-- Code 6. Raised by Ex9E and ExA1 when `V[x] > 0xF`; carries the value of Vx. Safe. -/
  | keyIndexOutOfRange (v : Byte)
deriving DecidableEq, Repr

/-- Reasons for giving an instruction no meaning. -/
inductive Refusal where
  /-- Raised by an arm of `exec` for an instruction not modelled yet; no arm raises it. Safe. -/
  | notModelled (mnemonic : String)
deriving DecidableEq, Repr

/-- The state after construction (`new()`, 10_state.md R47 to R49, R51): memory holds `FONT` and zeros, which is
what an unlisted address reads as, `pc` is 0x200 and everything else is zero. No input is chosen and no report
has been given (log entries 2, 3, 4). -/
def State.reset : State where
  mem := []
  v := Vector.replicate 16 0
  i := 0
  pc := 0x200
  stack := Vector.replicate 16 0
  sp := 0
  dt := 0
  st := 0
  fb := Vector.replicate 32 0
  report := ⟨false, false⟩
  inputs := []
  inputSeq := 0

end Sys2Proof.Machine
end

