-- ==== Sys2Proof/Machine/Ops.lean ====
section
/-! DEFINITION. The shared operations of the core: registers, pc, the range check, the stack, execution errors, the
sprite engine, the timers, the inputs of a step, and the parts of the step cycle (30_encoding.md R92). -/

namespace Sys2Proof.Machine

/-- The outcome of a meaning. -/
abbrev Result := Host.Outcome State Fault Refusal

/-! ### Execution errors -/

/-- `raise E(info)` (00_scope.md R15, 60_exceptions.md R203, R204): the core's whole exception entry. The step ends
with the error and with no next state, so the state stays as it was; nothing is saved, no mode changes and there
is no vector. Its counterpart after an error is `skipWord` (60_exceptions.md R205). -/
def raise (e : Fault) : Result := .fault e

/-- Go on with the value of a check, or raise its error. -/
def whenOk {α : Type} (c : Except Fault α) (k : α → Result) : Result :=
  match c with
  | .ok a => k a
  | .error e => raise e

/-- The numeric code of an execution error (60_exceptions.md R200). -/
def Fault.code : Fault → Nat
  | .unknownOpcode _ => 1
  | .stackOverflow => 2
  | .stackUnderflow => 3
  | .invalidSpriteIndex _ => 4
  | .memoryOutOfRange _ => 5
  | .keyIndexOutOfRange _ => 6

/-! ### Registers and pc -/

/-- `V[x]` (00_scope.md R13). -/
def State.getV (s : State) (x : Reg) : Byte := s.v[x.val]

/-- `V[x] <- b` (00_scope.md R13). -/
def State.setV (s : State) (x : Reg) (b : Byte) : State := { s with v := s.v.set x.val b x.isLt }

/-- `I <- w` (00_scope.md R13). -/
def State.setI (s : State) (w : Word) : State := { s with i := w }

/-- `pc <- target` (00_scope.md R13). -/
def State.setPc (s : State) (target : Word) : State := { s with pc := target }

/-- `pc <- pc +16 k` (10_state.md R36). -/
def State.advance (s : State) (k : Word) : State := s.setPc (s.pc + k)

/-- The end of every instruction that is no control transfer: `pc <- pc +16 2` (10_state.md R35). -/
def State.nextInstr (s : State) : State := s.advance 2

/-- A skip: `pc <- pc +16 (c ? 4 : 2)`; the skipped word is neither fetched nor decoded (41_control_flow.md R109). -/
def State.skipIf (s : State) (c : Bool) : State := s.advance (if c then 4 else 2)

/-! ### Memory access -/

/-- `InRange(a, n)` of 00_scope.md R14, computed exactly; a range of no bytes is never out of range
(20_memory.md R63). -/
def inRange (a : Word) (n : Nat) : Bool := decide (n = 0 ∨ a.toNat + n - 1 < Config.memSize)

/-- `max(a, 0x1000)`: the lowest out-of-range address of a range that starts at `a` (20_memory.md R63). -/
def lowestOutOfRange (a : Word) : Word := if a < 0x1000#16 then 0x1000#16 else a

/-- `CheckRange(a, n)` (20_memory.md R63): the whole range is checked before any byte of it is touched. -/
def checkRange (a : Word) (n : Nat) : Except Fault Unit :=
  if inRange a n then .ok () else .error (.memoryOutOfRange (lowestOutOfRange a))

/-- `MemRead` of the `n` bytes from `a` up, checked as one range (00_scope.md R14, 20_memory.md R62, R63). -/
def loadBytes (s : State) (a : Word) (n : Nat) : Except Fault (List Byte) :=
  match checkRange a n with
  | .ok () => .ok (s.mem.readBytes a.toNat n)
  | .error e => .error e

/-- `MemWrite` of a run of bytes from `a` up, checked as one range (00_scope.md R14, 20_memory.md R62); nothing is written when it does not fit
(20_memory.md R63). -/
def storeBytes (s : State) (a : Word) (bs : List Byte) : Except Fault State :=
  match checkRange a bs.length with
  | .ok () => .ok { s with mem := s.mem.writeBytes a.toNat bs }
  | .error e => .error e

/-! ### Register ranges -/

/-- The values of V0..Vx, V0 first (43_index_memory.md R144). -/
def regsUpTo (s : State) (x : Reg) : List Byte := s.v.toList.take (x.val + 1)

/-- Load registers from `k` up with a run of bytes (43_index_memory.md R145). -/
def loadRegsFrom (v : Vector Byte 16) (k : Nat) : List Byte → Vector Byte 16
  | [] => v
  | b :: bs => loadRegsFrom (if h : k < 16 then v.set k b h else v) (k + 1) bs

/-! ### The return-address stack -/

/-- `Push(v)` (10_state.md R38). -/
def push (s : State) (ret : Word) : Except Fault State :=
  if h : s.sp.val < 16 then
    .ok { s with stack := s.stack.set s.sp.val ret h, sp := ⟨s.sp.val + 1, Nat.succ_lt_succ h⟩ }
  else .error .stackOverflow

/-- `Pop()` (10_state.md R38): the slot keeps its value. -/
def pop (s : State) : Except Fault (Word × State) :=
  match s.sp with
  | ⟨0, _⟩ => .error .stackUnderflow
  | ⟨k + 1, h⟩ => .ok (s.stack[k]'(Nat.lt_of_succ_lt_succ h), { s with sp := ⟨k, Nat.lt_of_succ_lt h⟩ })

/-! ### The framebuffer and the sprite engine -/

/-- `FB[y][x]` (00_scope.md R13). -/
def Framebuffer.pixel (fb : Framebuffer) (y : Fin 32) (x : Fin 64) : Bool := fb[y.val].getLsbD x.val

/-- `FB[y][x] <- FB[y][x] ^ 1` (44_display.md R162). -/
def Framebuffer.flipPixel (fb : Framebuffer) (y : Fin 32) (x : Fin 64) : Framebuffer :=
  fb.set y.val (fb[y.val] ^^^ BitVec.twoPow 64 x.val) y.isLt

/-- All pixels 0 (44_display.md R160). -/
def Framebuffer.clear : Framebuffer := Vector.replicate 32 0

/-- Column wrap: `mod 64` (44_display.md R162). -/
def wrapX (n : Nat) : Fin 64 := Fin.ofNat 64 n

/-- Row wrap: `mod 32` (44_display.md R162, 90_conflicts.md C3). -/
def wrapY (n : Nat) : Fin 32 := Fin.ofNat 32 n

/-- The pixel of column `c` of a sprite row: bit `7 - c`, most significant bit first (44_display.md R161). -/
def spriteBit (row : Byte) (c : Nat) : Bool := row.getLsbD (7 - c)

/-- A framebuffer being drawn on, and whether a set pixel has been cleared so far. -/
structure Drawing where
  fb : Framebuffer
  hit : Bool
deriving DecidableEq, Repr

/-- The inner step of Dxyn for a sprite bit that is 1 (44_display.md R162). -/
def Drawing.toggle (d : Drawing) (y : Fin 32) (x : Fin 64) : Drawing :=
  { fb := Framebuffer.flipPixel d.fb y x, hit := d.hit || Framebuffer.pixel d.fb y x }

/-- One sprite row, over the given columns in order (44_display.md R162). -/
def drawColumns (row : Byte) (ox : Nat) (y : Fin 32) : List Nat → Drawing → Drawing
  | [], d => d
  | c :: cs, d => drawColumns row ox y cs (if spriteBit row c then d.toggle y (wrapX (ox + c)) else d)

/-- The eight columns of a sprite (00_scope.md R9, `SPRITE_W`). -/
def spriteColumns : List Nat := [0, 1, 2, 3, 4, 5, 6, 7]

/-- The sprite rows from row `oy` down (44_display.md R162). -/
def drawRows (ox : Nat) : Nat → List Byte → Drawing → Drawing
  | _, [], d => d
  | oy, row :: rows, d => drawRows ox (oy + 1) rows (drawColumns row ox (wrapY oy) spriteColumns d)

/-- Draw a sprite at column `ox`, row `oy` (44_display.md R162). -/
def drawSprite (fb : Framebuffer) (ox oy : Nat) (rows : List Byte) : Drawing :=
  drawRows ox oy rows { fb := fb, hit := false }

/-- `FB <- fb; changed <- true` (10_state.md R50). -/
def State.showFb (s : State) (fb : Framebuffer) : State :=
  { s with fb := fb, report := { s.report with framebufferChanged := true } }

/-! ### The inputs of a step -/

/-- Whether a byte is a member of the range (00_scope.md R10). -/
def RandRange.contains (r : RandRange) (b : Byte) : Bool :=
  match r with
  | .zeroTo255 => true
  | .oneTo255 => decide (b ≠ 0)

/-- The draw taken from a raw byte: every member of the range is a possible draw and nothing else is. Only the raw
byte 0 depends on the range (log entry 5). -/
def RandRange.draw (r : RandRange) (raw : Byte) : Byte :=
  if raw = 0 then
    match r with
    | .zeroTo255 => 0
    | .oneTo255 => 1
  else raw

/-- What the environment supplies to the coming step: what the host has chosen for it, else free values
(10_state.md R43, R44; log entries 2, 3). -/
def State.currentInput (s : State) : HostInput :=
  match s.inputs with
  | inp :: _ => inp
  | [] => { keys := Config.hostKeys s.inputSeq, rawDraw := Config.hostDraw s.inputSeq }

/-- `keys`: the latch snapshot every read of the step sees (10_state.md R43). -/
def State.keys (s : State) : KeyLatch := s.currentInput.keys

/-- `rnd`: the step's random draw, a member of `RAND_RANGE` (10_state.md R44). -/
def State.rnd (s : State) : Byte := RandRange.draw Config.randRange s.currentInput.rawDraw

/-- The step's inputs are used up. -/
def State.consumeInput (s : State) : State := { s with inputs := s.inputs.tail, inputSeq := s.inputSeq + 1 }

/-! ### The timers -/

/-- One tick, clamped at 0 (10_state.md R39). -/
def tick (t : Byte) : Byte := if t = 0 then 0 else t - 1

/-- The timer update, which also sets the beep edge of the report (60_exceptions.md R215, R216). -/
def timerUpdate (s : State) : State :=
  { s with dt := tick s.dt, st := tick s.st, report := { s.report with beepEdge := decide (s.st = 1) } }

/-! ### The step cycle -/

/-- The word at `pc`: `CheckRange(pc, 2)`, then two bytes, high byte first (20_memory.md R64). -/
def fetchWord (s : State) : Except Fault Word :=
  match checkRange s.pc 2 with
  | .ok () => .ok (wordOfBytes (s.mem.read s.pc.toNat) (s.mem.read (s.pc.toNat + 1)))
  | .error e => .error e

/-- Fetch, then decode: the range is checked before the word is decoded (30_encoding.md R92, 60_exceptions.md R206). -/
def fetchInstr (s : State) : Except Fault Instr :=
  match fetchWord s with
  | .error e => .error e
  | .ok w =>
    match decode w with
    | .ok i => .ok i
    | .error e => .error (.unknownOpcode e.word)

/-- What stands before `Execute` in the step cycle: `changed <- false`, and no beep yet (30_encoding.md R92). -/
def beginStep (s : State) : State := { s with report := ⟨false, false⟩ }

/-- What follows `Execute` in a step that raised no error: the timer update (30_encoding.md R92, 60_exceptions.md
R215); the step's inputs are then used up. -/
def endStep (s : State) : State := (timerUpdate s).consumeInput

/-- A word placed where the next step fetches: its high byte at `pc`, its low byte after it (20_memory.md R64). Where
no instruction can be fetched (`pc` above 0xFFE) there is no place for it and nothing changes. -/
def placeWord (s : State) (w : Word) : State :=
  if inRange s.pc 2 then { s with mem := s.mem.writeBytes s.pc.toNat [highByte w, lowByte w] } else s

end Sys2Proof.Machine
end

