-- ==== Sys2Proof/Machine/Flags.lean ====
section
/-! DEFINITION. The flag VF: every flag computation of the spec, and the order of the result and flag writes
(10_state.md R32, 42_alu.md R122 to R131, 44_display.md R163). -/

namespace Sys2Proof.Machine

/-- `bool(c)`: 1 if `c` holds and 0 otherwise (00_scope.md R12). -/
def boolByte (c : Bool) : Byte := if c then 1 else 0

/-- The carry of `a + b`: the exact sum is 256 or more (42_alu.md R127). -/
def carryFlag (a b : Byte) : Byte := boolByte (decide (256 ≤ a.toNat + b.toNat))

/-- The borrow of `a - b`: 1 when `a < b`. VF = 1 means borrow (42_alu.md R128). -/
def borrowFlag (a b : Byte) : Byte := boolByte (decide (a.toNat < b.toNat))

/-- The bit a right shift by one shifts out, bit 0 (42_alu.md R129). -/
def shiftOutRight (a : Byte) : Byte := a &&& 1

/-- The bit a left shift by one shifts out, bit 7 (42_alu.md R131). -/
def shiftOutLeft (a : Byte) : Byte := (a >>> 7) &&& 1

/-- The collision flag of Dxyn (44_display.md R163). -/
def collisionFlag (hit : Bool) : Byte := boolByte hit

/-- Result first, flag last: with x = F the flag survives (42_alu.md R122). -/
def writeResultThenFlag (s : State) (x : Reg) (res flag : Byte) : State := (s.setV x res).setV vf flag

end Sys2Proof.Machine
end

