-- ==== Sys2Proof/Machine/Alu.lean ====
section
/-! DEFINITION. Register loads and the ALU (42_alu.md). -/

namespace Sys2Proof.Machine

/-- `6xnn` LD Vx, nn (R120). -/
def execLdImm (x : Reg) (nn : Byte) (s : State) : Result := .next (s.setV x nn).nextInstr

/-- `7xnn` ADD Vx, nn: `V[x] +8 nn`, no flag (R121). -/
def execAddImm (x : Reg) (nn : Byte) (s : State) : Result := .next (s.setV x (s.getV x + nn)).nextInstr

/-- `8xy0` LD Vx, Vy (R123). -/
def execLdReg (x y : Reg) (s : State) : Result := .next (s.setV x (s.getV y)).nextInstr

/-- `8xy1` OR Vx, Vy (R124). -/
def execOrReg (x y : Reg) (s : State) : Result := .next (s.setV x (s.getV x ||| s.getV y)).nextInstr

/-- `8xy2` AND Vx, Vy (R125). -/
def execAndReg (x y : Reg) (s : State) : Result := .next (s.setV x (s.getV x &&& s.getV y)).nextInstr

/-- `8xy3` XOR Vx, Vy (R126). -/
def execXorReg (x y : Reg) (s : State) : Result := .next (s.setV x (s.getV x ^^^ s.getV y)).nextInstr

/-- `8xy4` ADD Vx, Vy: VF is the carry (R127). -/
def execAddReg (x y : Reg) (s : State) : Result :=
  .next (writeResultThenFlag s x (s.getV x + s.getV y) (carryFlag (s.getV x) (s.getV y))).nextInstr

/-- `8xy5` SUB Vx, Vy: VF is the borrow of `Vx - Vy` (R128). -/
def execSub (x y : Reg) (s : State) : Result :=
  .next (writeResultThenFlag s x (s.getV x - s.getV y) (borrowFlag (s.getV x) (s.getV y))).nextInstr

/-- `8xy6` SHR Vx: VF is bit 0 of the old Vx; Vy is not read (R129). -/
def execShr (x _y : Reg) (s : State) : Result :=
  .next (writeResultThenFlag s x (s.getV x >>> 1) (shiftOutRight (s.getV x))).nextInstr

/-- `8xy7` SUBN Vx, Vy: VF is the borrow of `Vy - Vx` (R130). -/
def execSubn (x y : Reg) (s : State) : Result :=
  .next (writeResultThenFlag s x (s.getV y - s.getV x) (borrowFlag (s.getV y) (s.getV x))).nextInstr

/-- `8xyE` SHL Vx: VF is bit 7 of the old Vx; Vy is not read (R131). -/
def execShl (x _y : Reg) (s : State) : Result :=
  .next (writeResultThenFlag s x (s.getV x <<< 1) (shiftOutLeft (s.getV x))).nextInstr

/-- `Cxnn` RND Vx, nn: `V[x] <- rnd & nn` (R135). -/
def execRnd (x : Reg) (nn : Byte) (s : State) : Result := .next (s.setV x (s.rnd &&& nn)).nextInstr

end Sys2Proof.Machine
end

