-- ==== Sys2Proof/Machine/Operands.lean ====
section
/-! DEFINITION. The operand forms of the instructions (30_encoding.md R82): every operand is read from the state
before the instruction writes any (00_scope.md R16). -/

namespace Sys2Proof.Machine

/-- A 12-bit address as a 16-bit target: `zext_16(nnn)` (30_encoding.md R82). -/
def addrOperand (nnn : Addr12) : Word := zext16 nnn

/-- The target of Bnnn: `zext_16(V[0]) + zext_16(nnn)`, not masked to 12 bits (41_control_flow.md R103). -/
def indexedTarget (s : State) (nnn : Addr12) : Word := zext16 (s.getV v0) + zext16 nnn

/-- The value of Vx as a key code: a value above 0xF is an error, not masked (45_keys_timers.md R176). -/
def keyOperand (v : Byte) : Except Fault (Fin 16) :=
  if h : v.toNat < 16 then .ok ⟨v.toNat, h⟩ else .error (.keyIndexOutOfRange v)

/-- `keys[k]` (00_scope.md R13). -/
def keyDown (s : State) (k : Fin 16) : Bool := s.keys[k.val]

/-- `min { k | keys[k] }`, where some key is pressed (45_keys_timers.md R173). -/
def lowestKey (keys : KeyLatch) : Option Nat := keys.toList.findIdx? id

/-- The value of Vx as a glyph number: the address of the glyph, five bytes each (43_index_memory.md R142). -/
def glyphOperand (v : Byte) : Except Fault Word :=
  if v.toNat ≤ 0xF then .ok (zext16 v * 5) else .error (.invalidSpriteIndex v)

/-- The three decimal digits of a byte, hundreds first (43_index_memory.md R143). -/
def bcdDigits (v : Byte) : List Byte := [v / 100, (v / 10) % 10, v % 10]

end Sys2Proof.Machine
end

