-- ==== Sys2Proof/Machine/ControlFlow.lean ====
section
/-! DEFINITION. Return, jumps, call and skips (41_control_flow.md). -/

namespace Sys2Proof.Machine

/-- `00EE` RET: `pc <- Pop()`, with nothing added (R100). -/
def execRet (s : State) : Result := whenOk (pop s) fun p => .next (p.2.setPc p.1)

/-- `1nnn` JP nnn: `pc <- zext_16(nnn)` (R101). -/
def execJp (nnn : Addr12) (s : State) : Result := .next (s.setPc (addrOperand nnn))

/-- `2nnn` CALL nnn: `Push(pc +16 2); pc <- zext_16(nnn)` (R102). -/
def execCall (nnn : Addr12) (s : State) : Result :=
  whenOk (push s (s.pc + 2)) fun t => .next (t.setPc (addrOperand nnn))

/-- `Bnnn` JP V0, nnn: `pc <- zext_16(V[0]) + zext_16(nnn)` (R103). -/
def execJpV0 (nnn : Addr12) (s : State) : Result := .next (s.setPc (indexedTarget s nnn))

/-- `3xnn` SE Vx, nn: skip if `V[x] == nn` (R104). -/
def execSeImm (x : Reg) (nn : Byte) (s : State) : Result := .next (s.skipIf (s.getV x == nn))

/-- `4xnn` SNE Vx, nn: skip if `V[x] != nn` (R105). -/
def execSneImm (x : Reg) (nn : Byte) (s : State) : Result := .next (s.skipIf (s.getV x != nn))

/-- `5xy0` SE Vx, Vy: skip if `V[x] == V[y]` (R106). -/
def execSeReg (x y : Reg) (s : State) : Result := .next (s.skipIf (s.getV x == s.getV y))

/-- `9xy0` SNE Vx, Vy: skip if `V[x] != V[y]` (R107). -/
def execSneReg (x y : Reg) (s : State) : Result := .next (s.skipIf (s.getV x != s.getV y))

end Sys2Proof.Machine
end

