-- ==== Sys2Proof/Machine/Display.lean ====
section
/-! DEFINITION. Clear and the sprite draw (44_display.md). -/

namespace Sys2Proof.Machine

/-- `00E0` CLS (R160). -/
def execCls (s : State) : Result := .next (s.showFb Framebuffer.clear).nextInstr

/-- `Dxyn` DRW Vx, Vy, n: the sprite rows at I, drawn by XOR at (Vx, Vy) with wrap on both axes; then VF is the
collision flag (R162, R163). -/
def execDrw (x y : Reg) (n : Nat) (s : State) : Result :=
  whenOk (loadBytes s s.i n) fun rows =>
    let d := drawSprite s.fb (s.getV x).toNat (s.getV y).toNat rows
    .next ((s.showFb d.fb).setV vf (collisionFlag d.hit)).nextInstr

end Sys2Proof.Machine
end

