-- ==== Sys2Proof/Machine/Index.lean ====
section
/-! DEFINITION. The index register and the transfers through it (43_index_memory.md). -/

namespace Sys2Proof.Machine

/-- `Annn` LD I, nnn (R140). -/
def execLdI (nnn : Addr12) (s : State) : Result := .next (s.setI (addrOperand nnn)).nextInstr

/-- `Fx1E` ADD I, Vx: `I +16 zext_16(V[x])`, no mask to 12 bits and no flag (R141). -/
def execAddI (x : Reg) (s : State) : Result := .next (s.setI (s.i + zext16 (s.getV x))).nextInstr

/-- `Fx29` LD F, Vx: the glyph's address (R142). -/
def execLdF (x : Reg) (s : State) : Result := whenOk (glyphOperand (s.getV x)) fun a => .next (s.setI a).nextInstr

/-- `Fx33` LD B, Vx: three decimal digits at I, I+1, I+2 (R143). -/
def execLdB (x : Reg) (s : State) : Result :=
  whenOk (storeBytes s s.i (bcdDigits (s.getV x))) fun t => .next t.nextInstr

/-- `Fx55` LD [I], Vx: V0..Vx at I..I+x; I is unchanged (R144). -/
def execLdStore (x : Reg) (s : State) : Result :=
  whenOk (storeBytes s s.i (regsUpTo s x)) fun t => .next t.nextInstr

/-- `Fx65` LD Vx, [I]: V0..Vx from I..I+x; I is unchanged (R145). -/
def execLdLoad (x : Reg) (s : State) : Result :=
  whenOk (loadBytes s s.i (x.val + 1)) fun bs => .next ({ s with v := loadRegsFrom s.v 0 bs } : State).nextInstr

end Sys2Proof.Machine
end

