-- ==== Sys2Proof/Machine/KeysTimers.lean ====
section
/-! DEFINITION. Keypad and timer instructions (45_keys_timers.md). -/

namespace Sys2Proof.Machine

/-- `Ex9E` SKP Vx: skip if the key is pressed (R170, R176). -/
def execSkp (x : Reg) (s : State) : Result :=
  whenOk (keyOperand (s.getV x)) fun k => .next (s.skipIf (keyDown s k))

/-- `ExA1` SKNP Vx: skip if the key is not pressed (R171, R176). -/
def execSknp (x : Reg) (s : State) : Result :=
  whenOk (keyOperand (s.getV x)) fun k => .next (s.skipIf (!keyDown s k))

/-- `Fx07` LD Vx, DT: DT before this step's timer update (R172). -/
def execLdVxDt (x : Reg) (s : State) : Result := .next (s.setV x s.dt).nextInstr

/-- What Fx0A leaves: the lowest pressed key in Vx, or no change while no key is pressed (R173). -/
def keyWaitState (x : Reg) (s : State) : State :=
  match lowestKey s.keys with
  | some k => (s.setV x (BitVec.ofNat 8 k)).nextInstr
  | none => s

/-- `Fx0A` LD Vx, K: the step completes either way; pc stays while no key is pressed (R173). -/
def execLdVxK (x : Reg) (s : State) : Result := .next (keyWaitState x s)

/-- `Fx15` LD DT, Vx (R174). -/
def execLdDtVx (x : Reg) (s : State) : Result := .next ({ s with dt := s.getV x } : State).nextInstr

/-- `Fx18` LD ST, Vx (R175). -/
def execLdStVx (x : Reg) (s : State) : Result := .next ({ s with st := s.getV x } : State).nextInstr

end Sys2Proof.Machine
end

