-- ==== Sys2Proof/Machine/Step.lean ====
section
/-! DEFINITION. One step (30_encoding.md R92): fetch, decode, execute, timer update. -/

namespace Sys2Proof.Machine

/-- `step` (30_encoding.md R92). An error, of the fetch, the decoder or the instruction, ends the step with no next
state (60_exceptions.md R203, R206). -/
def step (s : State) : Host.Outcome State Fault Refusal :=
  match fetchInstr s with
  | .error e => raise e
  | .ok i =>
    match exec i (beginStep s) with
    | .next t => .next (endStep t)
    | .fault e => raise e
    | .refused r => .refused r

/-- `s` with a table word stored where `step` fetches its next instruction, at `pc` (20_memory.md R64). -/
def State.withFetchWord (s : State) (nbits w : Nat) : State := placeWord s (tableWord nbits w)

end Sys2Proof.Machine
end

