-- ==== Sys2Proof/Machine/HostInterface.lean ====
section
/-! DEFINITION. The block interface the host uses (10_state.md R50 to R57): construction, program load, step with the
step's inputs, and the reads. Each is one whole operation between steps (R57). -/

namespace Sys2Proof.Machine

/-- `new()` (10_state.md R51): no failure mode; the core's only reset. -/
def new : State := State.reset

/-- Why a load fails (60_exceptions.md R201). -/
inductive LoadError where
  /-- Code 1: the image is longer than 3584 bytes. -/
  | imageTooLarge
deriving DecidableEq, Repr

/-- The numeric code of a load error (60_exceptions.md R201). -/
def LoadError.code : LoadError → Nat
  | .imageTooLarge => 1

/-- `load_program(bytes)` (10_state.md R52): the image at 0x200 and nothing else changes; too long an image writes
nothing. -/
def loadProgram (bytes : List Byte) (s : State) : Except LoadError State :=
  if Config.progMax < bytes.length then .error .imageTooLarge
  else .ok { s with mem := s.mem.writeBytes Config.progBase bytes }

/-- The host's choice of inputs for the coming step, made before it (10_state.md R43, R44, R53). -/
def State.withInput (s : State) (keys : KeyLatch) (rawDraw : Byte) : State :=
  { s with inputs := ⟨keys, rawDraw⟩ :: s.inputs }

/-- `step(keys)` with the environment's draw (10_state.md R53, 30_encoding.md R92): the state after it, and the
report or the error. After an error the state is the state before the step (60_exceptions.md R203). -/
def hostStep (keys : KeyLatch) (rawDraw : Byte) (s : State) : State × Host.Outcome StepReport Fault Refusal :=
  match step (s.withInput keys rawDraw) with
  | .next t => (t, .next t.report)
  | .fault e => (s, .fault e)
  | .refused r => (s, .refused r)

/-- `framebuffer()` (10_state.md R54): a read of `FB`. -/
def framebuffer (s : State) : Framebuffer := s.fb

/-- The record `snapshot_for_diagnostics()` returns (10_state.md R30, R55). -/
structure Snapshot where
  mem : Memory
  v : Vector Byte 16
  i : Word
  pc : Word
  stack : Vector Word 16
  sp : Fin 17
  dt : Byte
  st : Byte
  fb : Framebuffer
deriving DecidableEq, Repr

/-- `snapshot_for_diagnostics()` (10_state.md R55): the whole state record; it changes nothing. -/
def snapshotForDiagnostics (s : State) : Snapshot where
  mem := s.mem
  v := s.v
  i := s.i
  pc := s.pc
  stack := s.stack
  sp := s.sp
  dt := s.dt
  st := s.st
  fb := s.fb

/-- `skip_word()` (10_state.md R56): `pc <- pc +16 2`, with no tick and no report. It is how the host goes on past a
word that raised an error (60_exceptions.md R205). -/
def skipWord (s : State) : State := s.advance 2

end Sys2Proof.Machine
end

