-- ==== Sys2Proof/Safety.lean ====
section
/-! DEFINITION. The terms claims use: what an outcome is, what an instruction leaves unchanged, the invariant of the
core and the states the host can reach. -/

namespace Sys2Proof.Machine

/-! ### Outcomes -/

/-- The next state of an outcome, if there is one. -/
def nextOf {σ φ ρ : Type} : Host.Outcome σ φ ρ → Option σ
  | .next t => some t
  | .fault _ => none
  | .refused _ => none

/-- The fault of an outcome, if there is one. -/
def faultOf {σ φ ρ : Type} : Host.Outcome σ φ ρ → Option φ
  | .next _ => none
  | .fault e => some e
  | .refused _ => none

/-! ### Frames -/

/-- The parts of the state beside the V registers and pc, one for each piece of state. -/
inductive Part where
  | memory | index | callStack | delayTimer | soundTimer | screen | report | stepInputs
deriving DecidableEq, Repr

/-- `t` agrees with `s` on one part. Memory is compared byte by byte as it reads, the framebuffer pixel by pixel. -/
def SamePart (s t : State) : Part → Prop
  | .memory => ∀ a, t.mem.read a = s.mem.read a
  | .index => t.i = s.i
  | .callStack => t.stack = s.stack ∧ t.sp = s.sp
  | .delayTimer => t.dt = s.dt
  | .soundTimer => t.st = s.st
  | .screen => ∀ y x, Framebuffer.pixel t.fb y x = Framebuffer.pixel s.fb y x
  | .report => t.report = s.report
  | .stepInputs => t.inputs = s.inputs ∧ t.inputSeq = s.inputSeq

/-- `t` agrees with `s` on every V register but those listed. -/
def SameRegsExcept (rs : List Reg) (s t : State) : Prop := ∀ r, r ∉ rs → t.getV r = s.getV r

/-- `t` agrees with `s` on every byte of memory outside the `n` bytes from `lo` up. -/
def SameBytesOutside (lo n : Nat) (s t : State) : Prop :=
  ∀ a, (a < lo ∨ lo + n ≤ a) → t.mem.read a = s.mem.read a

/-- The frame of an instruction: nothing changes but the listed parts, the listed V registers, and pc. -/
def FrameExcept (ps : List Part) (rs : List Reg) (s t : State) : Prop :=
  SameRegsExcept rs s t ∧ ∀ p, p ∉ ps → SamePart s t p

/-- The parts an instruction may write beside V registers and pc (10_state.md R34, R37, R39, R40, R42, R50;
20_memory.md R69). -/
def writtenParts : Instr → List Part
  | .cls => [.screen, .report]
  | .drw _ _ _ => [.screen, .report]
  | .ret => [.callStack]
  | .call _ => [.callStack]
  | .ldI _ => [.index]
  | .addI _ => [.index]
  | .ldF _ => [.index]
  | .ldB _ => [.memory]
  | .ldStore _ => [.memory]
  | .ldDtVx _ => [.delayTimer]
  | .ldStVx _ => [.soundTimer]
  | .jp _ | .seImm _ _ | .sneImm _ _ | .seReg _ _ | .ldImm _ _ | .addImm _ _ | .ldReg _ _ | .orReg _ _
  | .andReg _ _ | .xorReg _ _ | .addReg _ _ | .sub _ _ | .shr _ _ | .subn _ _ | .shl _ _ | .sneReg _ _
  | .jpV0 _ | .rnd _ _ | .skp _ | .sknp _ | .ldVxDt _ | .ldVxK _ | .ldLoad _ => []

/-- The V registers an instruction may write (the table of 10_state.md R33). -/
def writtenRegs : Instr → List Reg
  | .addReg x _ => [x, vf]
  | .sub x _ => [x, vf]
  | .shr x _ => [x, vf]
  | .subn x _ => [x, vf]
  | .shl x _ => [x, vf]
  | .drw _ _ _ => [vf]
  | .ldImm x _ => [x]
  | .addImm x _ => [x]
  | .ldReg x _ => [x]
  | .orReg x _ => [x]
  | .andReg x _ => [x]
  | .xorReg x _ => [x]
  | .rnd x _ => [x]
  | .ldVxDt x => [x]
  | .ldVxK x => [x]
  | .ldLoad x => (List.finRange 16).filter (· ≤ x)
  | .cls | .ret | .jp _ | .call _ | .seImm _ _ | .sneImm _ _ | .seReg _ _ | .sneReg _ _ | .ldI _ | .jpV0 _
  | .skp _ | .sknp _ | .ldDtVx _ | .ldStVx _ | .addI _ | .ldF _ | .ldB _ | .ldStore _ => []

/-- The number of bytes at I an instruction touches (the table of 20_memory.md R69). -/
def touchedBytes : Instr → Nat
  | .drw _ _ n => n
  | .ldB _ => 3
  | .ldStore x => x.val + 1
  | .ldLoad x => x.val + 1
  | .cls | .ret | .jp _ | .call _ | .seImm _ _ | .sneImm _ _ | .seReg _ _ | .ldImm _ _ | .addImm _ _
  | .ldReg _ _ | .orReg _ _ | .andReg _ _ | .xorReg _ _ | .addReg _ _ | .sub _ _ | .shr _ _ | .subn _ _
  | .shl _ _ | .sneReg _ _ | .ldI _ | .jpV0 _ | .rnd _ _ | .skp _ | .sknp _ | .ldVxDt _ | .ldVxK _
  | .ldDtVx _ | .ldStVx _ | .addI _ | .ldF _ => 0

/-! ### Encodings -/

/-- Every word of a row of the opcode map decodes to the instruction `f` reads from its fields: `w` is of the row
when `w & mask == value` (30_encoding.md R90). -/
def RowDecodesTo (value mask : Word) (f : Word → Instr) : Prop :=
  ∀ w : Word, w &&& mask = value → decode w = .ok (f w)

/-! ### The sprite as a set of pixels -/

/-- Pixel (x, y) is under a 1 bit of the `n`-row sprite at `a` drawn at column `ox`, row `oy` (44_display.md R161,
R162). -/
def SpriteCovers (m : Memory) (a n ox oy : Nat) (y : Fin 32) (x : Fin 64) : Prop :=
  ∃ r c, r < n ∧ c < 8 ∧ (ox + c) % 64 = x.val ∧ (oy + r) % 32 = y.val ∧ (m.read (a + r)).getLsbD (7 - c) = true

/-! ### Invariant and reachable states -/

/-- The invariant of the core: memory is in canonical form, inside the 4096 bytes, and every stack slot holds 0 or a
return address a call can push, at most 0x1000 (41_control_flow.md R102). The bounds of 10_state.md R58 hold by
the types of the fields. -/
def State.Inv (s : State) : Prop := s.mem.wf = true ∧ ∀ k : Fin 16, s.stack[k.val].toNat ≤ 0x1000

/-- The states the host can reach: by construction and then any sequence of interface operations
(10_state.md R50 to R57), a step being taken with any inputs. An error leaves the state where it was. -/
inductive Reachable : State → Prop
  | new : Reachable new
  | load {s t : State} {bytes : List Byte} : Reachable s → loadProgram bytes s = .ok t → Reachable t
  | step {s : State} {keys : KeyLatch} {rawDraw : Byte} : Reachable s → Reachable (hostStep keys rawDraw s).1
  | skip {s : State} : Reachable s → Reachable (skipWord s)

/-- A safe run: `n` steps, none of which faults or is refused. -/
def SafeRun : Nat → State → Prop
  | 0, _ => True
  | n + 1, s => ∃ t, step s = .next t ∧ SafeRun n t

end Sys2Proof.Machine
end

