-- ==== Sys2Proof/Certificates/Slice0/Obligations.lean ====
section
/-! DEFINITION. The statements for the provers, each from the spec's rules or from the sections it names. Where the
spec marks a rule as its own decision (92_eei_decisions.md), the docstring names the decision. -/

open Sys2Proof Sys2Proof.Machine

/-! ### Encoding and decoding -/

/-- Words written out from the rows of 30_encoding.md section 3 decode to the instructions they stand for. -/
def Obligations.SpecWordsDecode : Prop :=
  decode 0x00E0#16 = .ok .cls ∧
  decode 0x2210#16 = .ok (.call 0x210#12) ∧
  decode 0x3342#16 = .ok (.seImm 3 0x42#8) ∧
  decode 0x6A5C#16 = .ok (.ldImm 10 0x5C#8) ∧
  decode 0x8124#16 = .ok (.addReg 1 2) ∧
  decode 0xA300#16 = .ok (.ldI 0x300#12) ∧
  decode 0xD125#16 = .ok (.drw 1 2 5) ∧
  decode 0xE09E#16 = .ok (.skp 0) ∧
  decode 0xF533#16 = .ok (.ldB 5)

/-- Decode and encode agree on every well-formed instruction, as a word and as the two bytes memory holds
(30_encoding.md sections 1 to 3). -/
def Obligations.DecodeOfEncodeIsTheInstruction : Prop :=
  ∀ i : Instr, WellFormed i = true →
    decode (encode i) = .ok i ∧ ∀ rest, decodeBytes (encodeBytes i ++ rest) = .ok (i, rest)

/-- Every word that decodes is the word of the instruction it decodes to, and that instruction is well formed: no
bit of a legal word is lost (30_encoding.md sections 1 to 3). -/
def Obligations.EncodeOfDecodeIsTheWord : Prop :=
  ∀ (w : Word) (i : Instr), decode w = .ok i → encode i = w ∧ WellFormed i = true

/-- A word is a row's instruction exactly when `w & mask == match` (30_encoding.md R90): a word that decodes matches
the row of its instruction, and a word that matches a row decodes to an instruction of that row. So exactly one row
matches each legal word. -/
def Obligations.RowMatchDecidesTheInstruction : Prop :=
  (∀ (w : Word) (i : Instr), decode w = .ok i → w &&& i.row.mask = i.row.value) ∧
  (∀ (w : Word) (j : Instr), w &&& j.row.mask = j.row.value → ∃ i, decode w = .ok i ∧ i.row = j.row)

/-- Groups 0x5, 0x9, 0x8, 0xE and 0xF decode by their low nibble or low byte, and their other words are rejected with
the whole word (30_encoding.md R85 to R88). -/
def Obligations.GroupDiscriminantsDecide : Prop :=
  ∀ w : Word,
    (fieldOp w = 0x5#4 →
      decode w = if fieldN w = 0x0#4 then .ok (.seReg (fieldX w) (fieldY w)) else .error ⟨w⟩) ∧
    (fieldOp w = 0x9#4 →
      decode w = if fieldN w = 0x0#4 then .ok (.sneReg (fieldX w) (fieldY w)) else .error ⟨w⟩) ∧
    (fieldOp w = 0x8#4 →
      (fieldN w = 0x0#4 → decode w = .ok (.ldReg (fieldX w) (fieldY w))) ∧
      (fieldN w = 0x1#4 → decode w = .ok (.orReg (fieldX w) (fieldY w))) ∧
      (fieldN w = 0x2#4 → decode w = .ok (.andReg (fieldX w) (fieldY w))) ∧
      (fieldN w = 0x3#4 → decode w = .ok (.xorReg (fieldX w) (fieldY w))) ∧
      (fieldN w = 0x4#4 → decode w = .ok (.addReg (fieldX w) (fieldY w))) ∧
      (fieldN w = 0x5#4 → decode w = .ok (.sub (fieldX w) (fieldY w))) ∧
      (fieldN w = 0x6#4 → decode w = .ok (.shr (fieldX w) (fieldY w))) ∧
      (fieldN w = 0x7#4 → decode w = .ok (.subn (fieldX w) (fieldY w))) ∧
      (fieldN w = 0xE#4 → decode w = .ok (.shl (fieldX w) (fieldY w))) ∧
      (fieldN w ∈ [0x8#4, 0x9#4, 0xA#4, 0xB#4, 0xC#4, 0xD#4, 0xF#4] → decode w = .error ⟨w⟩)) ∧
    (fieldOp w = 0xE#4 →
      (fieldNN w = 0x9E#8 → decode w = .ok (.skp (fieldX w))) ∧
      (fieldNN w = 0xA1#8 → decode w = .ok (.sknp (fieldX w))) ∧
      (fieldNN w ∉ [0x9E#8, 0xA1#8] → decode w = .error ⟨w⟩)) ∧
    (fieldOp w = 0xF#4 →
      (fieldNN w = 0x07#8 → decode w = .ok (.ldVxDt (fieldX w))) ∧
      (fieldNN w = 0x0A#8 → decode w = .ok (.ldVxK (fieldX w))) ∧
      (fieldNN w = 0x15#8 → decode w = .ok (.ldDtVx (fieldX w))) ∧
      (fieldNN w = 0x18#8 → decode w = .ok (.ldStVx (fieldX w))) ∧
      (fieldNN w = 0x1E#8 → decode w = .ok (.addI (fieldX w))) ∧
      (fieldNN w = 0x29#8 → decode w = .ok (.ldF (fieldX w))) ∧
      (fieldNN w = 0x33#8 → decode w = .ok (.ldB (fieldX w))) ∧
      (fieldNN w = 0x55#8 → decode w = .ok (.ldStore (fieldX w))) ∧
      (fieldNN w = 0x65#8 → decode w = .ok (.ldLoad (fieldX w))) ∧
      (fieldNN w ∉ [0x07#8, 0x0A#8, 0x15#8, 0x18#8, 0x1E#8, 0x29#8, 0x33#8, 0x55#8, 0x65#8] →
        decode w = .error ⟨w⟩))

/-- A fetched word raises `UnknownOpcode` with the whole word exactly when no row of the opcode map matches it
(30_encoding.md section 2, an inference the spec marks as derived; its group 0 rests on decision D15). -/
def Obligations.UnmatchedWordRaisesUnknownOpcode : Prop :=
  ∀ (s : State) (w : Word), fetchWord s = .ok w →
    ((∀ j : Instr, w &&& j.row.mask ≠ j.row.value) ↔ step s = .fault (.unknownOpcode w))

/-! ### Reset and invariants -/

/-- After construction: memory is `FONT` in 0x000..0x04F and 0 elsewhere, every V register, I, sp and every stack slot
is 0, and pc is 0x200 (10_state.md R47, R48). -/
def Obligations.ResetMemoryAndRegisters : Prop :=
  font.length = 80 ∧
  (∀ a (h : a < font.length), State.reset.mem.read a = font[a]) ∧
  (∀ a, 0x50 ≤ a → a ≤ 0xFFF → State.reset.mem.read a = 0) ∧
  (∀ x : Reg, State.reset.getV x = 0) ∧
  State.reset.i = 0 ∧ State.reset.pc = 0x200 ∧ State.reset.sp.val = 0 ∧
  (∀ k : Fin 16, State.reset.stack[k.val] = 0) ∧
  new = State.reset

/-- After construction every pixel is 0 and both timers are 0. The timers are the spec's own choice, decision D8
(log entry 6). -/
def Obligations.ResetScreenAndTimers : Prop :=
  (∀ y x, Framebuffer.pixel State.reset.fb y x = false) ∧ State.reset.dt = 0 ∧ State.reset.st = 0

/-- The state after reset meets the invariant (70_reset_and_hazards.md section 1). -/
def Obligations.ResetMeetsTheInvariant : Prop := State.reset.Inv

/-- From every state that meets the invariant, a step that answers next answers a state that meets it: memory keeps
its canonical form inside the 4096 bytes, and stack slots hold return addresses of at most 0x1000. -/
def Obligations.EveryStepKeepsTheInvariant : Prop :=
  ∀ s t : State, s.Inv → step s = .next t → t.Inv

/-- Every state the host can reach, by construction and any sequence of loads, steps with any inputs, and skipped
words, meets the invariant (10_state.md section 8). That a load may come between any two steps and that a word may be
skipped are the spec's decisions D18 and D17 (log entry 9). -/
def Obligations.EveryReachableStateMeetsTheInvariant : Prop := ∀ s : State, Reachable s → s.Inv

/-- From a state that meets the invariant, pc after a step is at most 0x10FE, the greatest target of Bnnn: the 16-bit
wrap is never reached (10_state.md section 3, 41_control_flow.md section 1; R36 is an inference of the spec). -/
def Obligations.PcAfterAStepIsBounded : Prop :=
  ∀ s t : State, s.Inv → step s = .next t → t.pc.toNat ≤ 0x10FE

/-! ### The step cycle -/

/-- A step runs the decoded instruction: where the two bytes at pc decode to `i`, `step` is `exec i` from the state
with the report cleared, followed by the timer update; an error ends it (30_encoding.md section 4). That the report
and the inputs of a step stand in State, so that a step clears the one, uses up the head of the other and counts up
the number of the free inputs, is the model's choice (log entries 2, 3 and 4). -/
def Obligations.StepRunsTheDecodedInstruction : Prop :=
  (∀ (s : State) (i : Instr), s.pc.toNat + 2 ≤ 0x1000 →
    decodeBytes [s.mem.read s.pc.toNat, s.mem.read (s.pc.toNat + 1)] = .ok (i, []) →
    step s = match exec i (beginStep s) with
      | .next t => .next (endStep t)
      | .fault e => .fault e
      | .refused r => .refused r) ∧
  (∀ s : State, beginStep s = { s with report := ⟨false, false⟩ }) ∧
  (∀ s : State, endStep s = { s with
    dt := tick s.dt, st := tick s.st, report := { s.report with beepEdge := decide (s.st = 1) },
    inputs := s.inputs.tail, inputSeq := s.inputSeq + 1 }) ∧
  core.step = step

/-- A word placed for the next step is the instruction the next step fetches: for every well-formed instruction and every
state whose pc has room for a word (20_memory.md section 2). Placing a word is no operation of the spec but the model's
choice, which stands for the load of a program: it changes the two bytes at pc and nothing else (log entry 11). -/
def Obligations.PlacedWordIsTheNextInstruction : Prop :=
  ∀ (s : State) (i : Instr), WellFormed i = true → s.pc.toNat + 2 ≤ 0x1000 →
    decodeTableWord 16 (encode i).toNat = some i ∧
    fetchInstr (s.withFetchWord 16 (encode i).toNat) = .ok i ∧
    SameBytesOutside s.pc.toNat 2 s (s.withFetchWord 16 (encode i).toNat) ∧
    FrameExcept [.memory] [] s (s.withFetchWord 16 (encode i).toNat) ∧
    (s.withFetchWord 16 (encode i).toNat).pc = s.pc

/-- A fetch at pc of 0xFFF or above raises `MemoryOutOfRange(max(pc, 0x1000))`, whatever memory holds: the range is
checked before decode (20_memory.md section 2 and 60_exceptions.md section 4; the spec's decisions D3, D22, D23). -/
def Obligations.FetchOutOfRangeFaults : Prop :=
  ∀ s : State, 0xFFF ≤ s.pc.toNat →
    ∃ a : Word, a.toNat = max s.pc.toNat 0x1000 ∧ step s = .fault (.memoryOutOfRange a)

/-- The timer update runs once at the end of every step that raised no error, after the instruction: both timers lose
one, clamped at 0, the beep edge is that ST was exactly 1, and nothing else of the machine changes
(60_exceptions.md R215). -/
def Obligations.TimersTickAtTheEndOfEveryStep : Prop :=
  ∀ s t : State, step s = .next t →
    ∃ i u, fetchInstr s = .ok i ∧ exec i (beginStep s) = .next u ∧
      t.dt.toNat = u.dt.toNat - 1 ∧ t.st.toNat = u.st.toNat - 1 ∧
      (t.report.beepEdge = true ↔ u.st.toNat = 1 ∧ t.st.toNat = 0) ∧
      t.report.framebufferChanged = u.report.framebufferChanged ∧
      FrameExcept [.delayTimer, .soundTimer, .report, .stepInputs] [] u t ∧ t.pc = u.pc

/-- In every step but one of Fx15, DT counts down by one from its value before the step; in every step but one of Fx18,
so does ST, and the beep edge is that it was 1 (60_exceptions.md section 6; the writers are R218, an inference of the
spec). -/
def Obligations.TimersCountDownUnlessWritten : Prop :=
  ∀ (s t : State) (i : Instr), fetchInstr s = .ok i → step s = .next t →
    ((∀ x, i ≠ .ldDtVx x) → t.dt.toNat = s.dt.toNat - 1) ∧
    ((∀ x, i ≠ .ldStVx x) → t.st.toNat = s.st.toNat - 1 ∧ (t.report.beepEdge = true ↔ s.st.toNat = 1))

/-- A step's report: `framebuffer_changed` exactly when the step executed 00E0 or Dxyn, `beep_edge` exactly when its
timer update found ST = 1 and took it to 0; a step that raises an error returns the error and no report
(10_state.md R50). -/
def Obligations.ReportSaysScreenAndBeep : Prop :=
  ∀ (keys : KeyLatch) (raw : Byte) (s : State),
    (∀ t rep i, hostStep keys raw s = (t, .next rep) → fetchInstr s = .ok i →
      (rep.framebufferChanged = true ↔ i = .cls ∨ ∃ x y n, i = .drw x y n) ∧
      (rep.beepEdge = true ↔
        ∃ u, exec i (beginStep (s.withInput keys raw)) = .next u ∧ u.st.toNat = 1 ∧ t.st.toNat = 0)) ∧
    (∀ e, step (s.withInput keys raw) = .fault e → (hostStep keys raw s).2 = .fault e)

/-! ### Whole-machine rules -/

/-- What an instruction leaves unchanged, for all 34: every V register but those of the table of 10_state.md section 2,
every other piece of state but those 10_state.md sections 3 to 5 and 20_memory.md section 4 let it write, and of
memory every byte outside the bytes it touches at I. -/
def Obligations.EveryInstructionKeepsItsFrame : Prop :=
  ∀ (i : Instr) (s t : State), exec i s = .next t →
    FrameExcept (writtenParts i) (writtenRegs i) s t ∧ SameBytesOutside s.i.toNat (touchedBytes i) s t

/-- An instruction raises an error exactly when its rule says so, with the information its rule says, and no instruction
and no step is ever refused (60_exceptions.md sections 1 and 4; decisions D3, D4, D24 are the spec's own). -/
def Obligations.ErrorsAreExactlyTheListedOnes : Prop :=
  (∀ (i : Instr) (s : State) (e : Fault), exec i s = .fault e ↔
    (i = .ret ∧ s.sp.val = 0 ∧ e = .stackUnderflow) ∨
    (∃ nnn, i = .call nnn ∧ s.sp.val = 16 ∧ e = .stackOverflow) ∨
    (∃ x, i = .ldF x ∧ 0xF < (s.getV x).toNat ∧ e = .invalidSpriteIndex (s.getV x)) ∨
    (∃ x, (i = .skp x ∨ i = .sknp x) ∧ 0xF < (s.getV x).toNat ∧ e = .keyIndexOutOfRange (s.getV x)) ∨
    (∃ a : Word, 1 ≤ touchedBytes i ∧ 0x1000 ≤ s.i.toNat + touchedBytes i - 1 ∧
      a.toNat = max s.i.toNat 0x1000 ∧ e = .memoryOutOfRange a)) ∧
  (∀ (i : Instr) (s : State) (r : Refusal), exec i s ≠ .refused r) ∧
  (∀ (s : State) (r : Refusal), step s ≠ .refused r)

/-- A step that raises an error leaves the whole state as it was and returns the error (60_exceptions.md section 2, the
spec's decision D2). -/
def Obligations.FailedStepLeavesTheState : Prop :=
  ∀ (keys : KeyLatch) (raw : Byte) (s : State) (e : Fault), step (s.withInput keys raw) = .fault e →
    hostStep keys raw s = (s, .fault e)

/-- After an error the host may step again: the same error is raised again, whatever the keys and the draw are
(60_exceptions.md section 3, the spec's decision D17). -/
def Obligations.RetriedStepRaisesTheSameError : Prop :=
  ∀ (keys keys' : KeyLatch) (raw raw' : Byte) (s : State) (e : Fault),
    step (s.withInput keys raw) = .fault e → step (s.withInput keys' raw') = .fault e

/-- A step that does not execute Cxnn does not use the random draw, and a step that executes none of Ex9E, ExA1 and Fx0A
does not use the latch: state and result are the same for any other draw or latch (10_state.md section 5; the draw is
the spec's decision D6). -/
def Obligations.InputsReachOnlyTheirInstructions : Prop :=
  ∀ (keys keys' : KeyLatch) (raw raw' : Byte) (s : State) (i : Instr), fetchInstr s = .ok i →
    ((∀ x nn, i ≠ .rnd x nn) → hostStep keys raw s = hostStep keys raw' s) ∧
    ((∀ x, i ≠ .skp x ∧ i ≠ .sknp x ∧ i ≠ .ldVxK x) → hostStep keys raw s = hostStep keys' raw s)

/-! ### Control flow -/

/-- RET: with a return address on the stack, pc becomes it with nothing added, sp falls by one, the slot keeps its
value and nothing else changes; with none it raises `StackUnderflow` (41_control_flow.md section 1, the spec's
decisions D5 and D21). -/
def Obligations.RetPopsTheReturnAddress : Prop :=
  RowDecodesTo 0x00EE#16 0xFFFF#16 (fun _ => .ret) ∧
  ∀ s : State,
    (∀ h : 0 < s.sp.val, ∃ t, exec .ret s = .next t ∧
      t.pc = s.stack[s.sp.val - 1]'(by have := s.sp.isLt; omega) ∧
      t.sp.val = s.sp.val - 1 ∧ t.stack = s.stack ∧ FrameExcept [.callStack] [] s t) ∧
    (s.sp.val = 0 → exec .ret s = .fault .stackUnderflow)

/-- JP: pc becomes nnn and nothing else changes, in every state; a target of 0xFFF makes the next fetch raise
`MemoryOutOfRange(0x1000)`; a jump to its own address is fetched again after a step that ticks the timers
(41_control_flow.md R101). -/
def Obligations.JpSetsPc : Prop :=
  RowDecodesTo 0x1000#16 0xF000#16 (fun w => .jp (fieldNNN w)) ∧
  ∀ (nnn : Addr12) (s : State),
    (∃ t, exec (.jp nnn) s = .next t ∧ t.pc.toNat = nnn.toNat ∧
      FrameExcept [] [] s t ∧ (nnn.toNat = 0xFFF → step t = .fault (.memoryOutOfRange 0x1000#16))) ∧
    (fetchInstr s = .ok (.jp nnn) → s.pc.toNat = nnn.toNat →
      ∃ t, step s = .next t ∧ t.pc = s.pc ∧ fetchInstr t = .ok (.jp nnn) ∧
        t.dt.toNat = s.dt.toNat - 1 ∧ t.st.toNat = s.st.toNat - 1)

/-- CALL: below 16 entries it pushes the address of the next word and jumps, and only the slot at sp changes; at 16 it
raises `StackOverflow` (41_control_flow.md section 1; the pushed address is the spec's decision D5). -/
def Obligations.CallPushesTheNextAddress : Prop :=
  RowDecodesTo 0x2000#16 0xF000#16 (fun w => .call (fieldNNN w)) ∧
  ∀ (nnn : Addr12) (s : State),
    (s.sp.val < 16 → ∃ t, exec (.call nnn) s = .next t ∧ t.pc.toNat = nnn.toNat ∧ t.sp.val = s.sp.val + 1 ∧
      (∀ k : Fin 16, t.stack[k.val] = if k.val = s.sp.val then s.pc + 2#16 else s.stack[k.val]) ∧
      FrameExcept [.callStack] [] s t) ∧
    (s.sp.val = 16 → exec (.call nnn) s = .fault .stackOverflow)

/-- JP V0: pc becomes the exact sum of V0 and nnn, not masked to 12 bits, and nothing else changes; a target above 0xFFE
makes the next fetch raise `MemoryOutOfRange` (41_control_flow.md R103). -/
def Obligations.JpV0AddsV0 : Prop :=
  RowDecodesTo 0xB000#16 0xF000#16 (fun w => .jpV0 (fieldNNN w)) ∧
  ∀ (nnn : Addr12) (s : State), ∃ t, exec (.jpV0 nnn) s = .next t ∧
    t.pc.toNat = (s.getV v0).toNat + nnn.toNat ∧ t.pc.toNat ≤ 0x10FE ∧ FrameExcept [] [] s t ∧
    (0xFFE < t.pc.toNat → ∃ a, step t = .fault (.memoryOutOfRange a))

/-- The immediate skips: pc advances by 4 when Vx equals nn (SE), or differs from it (SNE), else by 2, and nothing else
changes, whatever word is skipped (41_control_flow.md R104, R105). -/
def Obligations.ImmediateSkipsAdvancePc : Prop :=
  RowDecodesTo 0x3000#16 0xF000#16 (fun w => .seImm (fieldX w) (fieldNN w)) ∧
  RowDecodesTo 0x4000#16 0xF000#16 (fun w => .sneImm (fieldX w) (fieldNN w)) ∧
  ∀ (x : Reg) (nn : Byte) (s : State),
    (∃ t, exec (.seImm x nn) s = .next t ∧ t.pc = s.pc + (if s.getV x = nn then 4#16 else 2#16) ∧
      FrameExcept [] [] s t) ∧
    (∃ t, exec (.sneImm x nn) s = .next t ∧ t.pc = s.pc + (if s.getV x ≠ nn then 4#16 else 2#16) ∧
      FrameExcept [] [] s t)

/-- The register skips: pc advances by 4 when Vx equals Vy (SE), or differs from it (SNE), else by 2, and nothing else
changes; a word of these groups with another low nibble is no instruction (41_control_flow.md R106, R107). -/
def Obligations.RegisterSkipsAdvancePc : Prop :=
  RowDecodesTo 0x5000#16 0xF00F#16 (fun w => .seReg (fieldX w) (fieldY w)) ∧
  RowDecodesTo 0x9000#16 0xF00F#16 (fun w => .sneReg (fieldX w) (fieldY w)) ∧
  (∀ w : Word, (fieldOp w = 0x5#4 ∨ fieldOp w = 0x9#4) → fieldN w ≠ 0x0#4 → decode w = .error ⟨w⟩) ∧
  ∀ (x y : Reg) (s : State),
    (∃ t, exec (.seReg x y) s = .next t ∧ t.pc = s.pc + (if s.getV x = s.getV y then 4#16 else 2#16) ∧
      FrameExcept [] [] s t) ∧
    (∃ t, exec (.sneReg x y) s = .next t ∧ t.pc = s.pc + (if s.getV x ≠ s.getV y then 4#16 else 2#16) ∧
      FrameExcept [] [] s t)

/-- A call and then a return, from wherever the subroutine ends, goes on at the word after the call with the stack
pointer as it was (41_control_flow.md section 1, the spec's decision D5). -/
def Obligations.CallThenRetComesBack : Prop :=
  ∀ (nnn : Addr12) (s : State) (p : Word), s.sp.val < 16 →
    ∃ t u, exec (.call nnn) s = .next t ∧ exec .ret (t.setPc p) = .next u ∧ u.pc = s.pc + 2#16 ∧ u.sp = s.sp ∧
      FrameExcept [.callStack] [] s u

/-! ### Loads and the ALU -/

/-- LD Vx, nn: Vx becomes nn and pc advances by exactly 2, in every state; no flag is written and nothing else changes
(42_alu.md R120). -/
def Obligations.LdImmLoadsTheImmediate : Prop :=
  RowDecodesTo 0x6000#16 0xF000#16 (fun w => .ldImm (fieldX w) (fieldNN w)) ∧
  ∀ (x : Reg) (nn : Byte) (s : State), ∃ t, exec (.ldImm x nn) s = .next t ∧
    t.getV x = nn ∧ t.pc = s.pc + 2#16 ∧ FrameExcept [] [x] s t

/-- ADD Vx, nn: Vx becomes the sum modulo 256; VF is not written as a flag, even on overflow (42_alu.md R121). -/
def Obligations.AddImmWrapsAndSetsNoFlag : Prop :=
  RowDecodesTo 0x7000#16 0xF000#16 (fun w => .addImm (fieldX w) (fieldNN w)) ∧
  ∀ (x : Reg) (nn : Byte) (s : State), ∃ t, exec (.addImm x nn) s = .next t ∧
    (t.getV x).toNat = ((s.getV x).toNat + nn.toNat) % 256 ∧ t.pc = s.pc + 2#16 ∧ FrameExcept [] [x] s t

/-- LD Vx, Vy: Vx becomes Vy and nothing else changes (42_alu.md R123). -/
def Obligations.LdRegCopies : Prop :=
  RowDecodesTo 0x8000#16 0xF00F#16 (fun w => .ldReg (fieldX w) (fieldY w)) ∧
  ∀ (x y : Reg) (s : State), ∃ t, exec (.ldReg x y) s = .next t ∧
    t.getV x = s.getV y ∧ t.pc = s.pc + 2#16 ∧ FrameExcept [] [x] s t

/-- OR, AND and XOR, bit by bit: Vx becomes the bitwise result, VF is not reset (42_alu.md R124, R125, R126). -/
def Obligations.LogicIsBitwiseAndSetsNoFlag : Prop :=
  RowDecodesTo 0x8001#16 0xF00F#16 (fun w => .orReg (fieldX w) (fieldY w)) ∧
  RowDecodesTo 0x8002#16 0xF00F#16 (fun w => .andReg (fieldX w) (fieldY w)) ∧
  RowDecodesTo 0x8003#16 0xF00F#16 (fun w => .xorReg (fieldX w) (fieldY w)) ∧
  ∀ (x y : Reg) (s : State),
    (∃ t, exec (.orReg x y) s = .next t ∧
      (∀ k, (t.getV x).getLsbD k = ((s.getV x).getLsbD k || (s.getV y).getLsbD k)) ∧
      t.pc = s.pc + 2#16 ∧ FrameExcept [] [x] s t) ∧
    (∃ t, exec (.andReg x y) s = .next t ∧
      (∀ k, (t.getV x).getLsbD k = ((s.getV x).getLsbD k && (s.getV y).getLsbD k)) ∧
      t.pc = s.pc + 2#16 ∧ FrameExcept [] [x] s t) ∧
    (∃ t, exec (.xorReg x y) s = .next t ∧
      (∀ k, (t.getV x).getLsbD k = ((s.getV x).getLsbD k ^^ (s.getV y).getLsbD k)) ∧
      t.pc = s.pc + 2#16 ∧ FrameExcept [] [x] s t)

/-- ADD Vx, Vy: VF is the carry on every execution, also with x = F, and with x other than F Vx is the sum modulo 256;
the operands are the values at entry, also with y = F (42_alu.md R127). -/
def Obligations.AddRegSetsTheCarry : Prop :=
  RowDecodesTo 0x8004#16 0xF00F#16 (fun w => .addReg (fieldX w) (fieldY w)) ∧
  ∀ (x y : Reg) (s : State), ∃ t, exec (.addReg x y) s = .next t ∧
    (t.getV vf).toNat = (if 256 ≤ (s.getV x).toNat + (s.getV y).toNat then 1 else 0) ∧
    (x ≠ vf → (t.getV x).toNat = ((s.getV x).toNat + (s.getV y).toNat) % 256) ∧
    t.pc = s.pc + 2#16 ∧ FrameExcept [] [x, vf] s t

/-- SUB and SUBN: the difference modulo 256, of Vx minus Vy or of Vy minus Vx, and VF = 1 exactly on a borrow, on every
execution and also with x = F (42_alu.md R128, R130). -/
def Obligations.SubtractionsSetTheBorrow : Prop :=
  RowDecodesTo 0x8005#16 0xF00F#16 (fun w => .sub (fieldX w) (fieldY w)) ∧
  RowDecodesTo 0x8007#16 0xF00F#16 (fun w => .subn (fieldX w) (fieldY w)) ∧
  ∀ (x y : Reg) (s : State),
    (∃ t, exec (.sub x y) s = .next t ∧
      (t.getV vf).toNat = (if (s.getV x).toNat < (s.getV y).toNat then 1 else 0) ∧
      (x ≠ vf → ((t.getV x).toNat : Int) = ((s.getV x).toNat - (s.getV y).toNat : Int) % 256) ∧
      t.pc = s.pc + 2#16 ∧ FrameExcept [] [x, vf] s t) ∧
    (∃ t, exec (.subn x y) s = .next t ∧
      (t.getV vf).toNat = (if (s.getV y).toNat < (s.getV x).toNat then 1 else 0) ∧
      (x ≠ vf → ((t.getV x).toNat : Int) = ((s.getV y).toNat - (s.getV x).toNat : Int) % 256) ∧
      t.pc = s.pc + 2#16 ∧ FrameExcept [] [x, vf] s t)

/-- SHR and SHL shift Vx by one, Vy not being read, and VF is the bit shifted out of the old Vx, on every execution and
also with x = F (42_alu.md R129, R131). -/
def Obligations.ShiftsSetTheBitShiftedOut : Prop :=
  RowDecodesTo 0x8006#16 0xF00F#16 (fun w => .shr (fieldX w) (fieldY w)) ∧
  RowDecodesTo 0x800E#16 0xF00F#16 (fun w => .shl (fieldX w) (fieldY w)) ∧
  ∀ (x y : Reg) (s : State),
    (∃ t, exec (.shr x y) s = .next t ∧
      (t.getV vf).toNat = (s.getV x).toNat % 2 ∧ (x ≠ vf → (t.getV x).toNat = (s.getV x).toNat / 2) ∧
      t.pc = s.pc + 2#16 ∧ FrameExcept [] [x, vf] s t) ∧
    (∃ t, exec (.shl x y) s = .next t ∧
      (t.getV vf).toNat = (s.getV x).toNat / 128 ∧ (x ≠ vf → (t.getV x).toNat = (s.getV x).toNat * 2 % 256) ∧
      t.pc = s.pc + 2#16 ∧ FrameExcept [] [x, vf] s t)

/-- RND: Vx becomes the step's draw under the mask nn; the draw is a member of `RAND_RANGE`, a mask of 0 gives 0, and
a mask of 0xFF gives a member of the range, so never 0 where the range is {1..255} (42_alu.md section 4, the spec's
decision D6; log entry 5). -/
def Obligations.RndMasksTheDraw : Prop :=
  RowDecodesTo 0xC000#16 0xF000#16 (fun w => .rnd (fieldX w) (fieldNN w)) ∧
  (∀ s : State, RandRange.contains Config.randRange s.rnd = true) ∧
  ∀ (x : Reg) (nn : Byte) (s : State), ∃ t, exec (.rnd x nn) s = .next t ∧
    (∀ k, (t.getV x).getLsbD k = (s.rnd.getLsbD k && nn.getLsbD k)) ∧
    (nn.toNat = 0 → (t.getV x).toNat = 0) ∧
    (nn.toNat = 0xFF → RandRange.contains Config.randRange (t.getV x) = true) ∧
    t.pc = s.pc + 2#16 ∧ FrameExcept [] [x] s t

/-! ### The index register and memory -/

/-- LD I, nnn: I becomes nnn, its upper four bits 0, and nothing else changes (43_index_memory.md R140). -/
def Obligations.LdISetsTheIndex : Prop :=
  RowDecodesTo 0xA000#16 0xF000#16 (fun w => .ldI (fieldNNN w)) ∧
  ∀ (nnn : Addr12) (s : State), ∃ t, exec (.ldI nnn) s = .next t ∧
    t.i.toNat = nnn.toNat ∧ t.pc = s.pc + 2#16 ∧ FrameExcept [.index] [] s t

/-- ADD I, Vx: I becomes the sum modulo 65536, not masked to 12 bits, and VF is not written (43_index_memory.md section 1;
the wrap is the spec's decision D13). -/
def Obligations.AddIWrapsAndSetsNoFlag : Prop :=
  RowDecodesTo 0xF01E#16 0xF0FF#16 (fun w => .addI (fieldX w)) ∧
  ∀ (x : Reg) (s : State), ∃ t, exec (.addI x) s = .next t ∧
    t.i.toNat = (s.i.toNat + (s.getV x).toNat) % 65536 ∧ t.pc = s.pc + 2#16 ∧ FrameExcept [.index] [] s t

/-- LD F, Vx: with Vx at most 0xF, I becomes five times Vx and nothing else changes; above it raises
`InvalidSpriteIndex(Vx)` and the step leaves the state unchanged (43_index_memory.md R142). -/
def Obligations.LdFPointsAtTheGlyph : Prop :=
  RowDecodesTo 0xF029#16 0xF0FF#16 (fun w => .ldF (fieldX w)) ∧
  ∀ (x : Reg) (s : State),
    ((s.getV x).toNat ≤ 0xF → ∃ t, exec (.ldF x) s = .next t ∧ t.i.toNat = (s.getV x).toNat * 5 ∧
      t.pc = s.pc + 2#16 ∧ FrameExcept [.index] [] s t) ∧
    (0xF < (s.getV x).toNat → exec (.ldF x) s = .fault (.invalidSpriteIndex (s.getV x)) ∧
      ∀ keys raw, fetchInstr s = .ok (.ldF x) → hostStep keys raw s = (s, .fault (.invalidSpriteIndex (s.getV x))))

/-- LD B, Vx: where I, I+1 and I+2 are in memory, they become the hundreds, tens and ones of Vx, every other byte reads as
before and I is unchanged; otherwise it raises `MemoryOutOfRange(max(I, 0x1000))` (43_index_memory.md section 2; the
error is the spec's decision D3). -/
def Obligations.LdBStoresThreeDigits : Prop :=
  RowDecodesTo 0xF033#16 0xF0FF#16 (fun w => .ldB (fieldX w)) ∧
  ∀ (x : Reg) (s : State),
    (s.i.toNat + 2 < 0x1000 → ∃ t, exec (.ldB x) s = .next t ∧
      (t.mem.read s.i.toNat).toNat = (s.getV x).toNat / 100 ∧
      (t.mem.read (s.i.toNat + 1)).toNat = (s.getV x).toNat / 10 % 10 ∧
      (t.mem.read (s.i.toNat + 2)).toNat = (s.getV x).toNat % 10 ∧
      SameBytesOutside s.i.toNat 3 s t ∧ t.pc = s.pc + 2#16 ∧ FrameExcept [.memory] [] s t) ∧
    (0x1000 ≤ s.i.toNat + 2 → ∃ a : Word, a.toNat = max s.i.toNat 0x1000 ∧
      exec (.ldB x) s = .fault (.memoryOutOfRange a))

/-- LD [I], Vx: where I to I+x is in memory, byte I+k becomes Vk for every k up to x, every other byte reads as before and
I is unchanged; otherwise it raises `MemoryOutOfRange(max(I, 0x1000))` (43_index_memory.md section 2; the error is the
spec's decision D3). -/
def Obligations.LdStoreStoresRegisters : Prop :=
  RowDecodesTo 0xF055#16 0xF0FF#16 (fun w => .ldStore (fieldX w)) ∧
  ∀ (x : Reg) (s : State),
    (s.i.toNat + x.val < 0x1000 → ∃ t, exec (.ldStore x) s = .next t ∧
      (∀ k : Reg, k ≤ x → t.mem.read (s.i.toNat + k.val) = s.getV k) ∧
      SameBytesOutside s.i.toNat (x.val + 1) s t ∧ t.pc = s.pc + 2#16 ∧ FrameExcept [.memory] [] s t) ∧
    (0x1000 ≤ s.i.toNat + x.val → ∃ a : Word, a.toNat = max s.i.toNat 0x1000 ∧
      exec (.ldStore x) s = .fault (.memoryOutOfRange a))

/-- LD Vx, [I]: where I to I+x is in memory, Vk becomes byte I+k for every k up to x, registers above x and I are
unchanged; otherwise it raises `MemoryOutOfRange(max(I, 0x1000))` (43_index_memory.md section 2; the error is the
spec's decision D3). -/
def Obligations.LdLoadLoadsRegisters : Prop :=
  RowDecodesTo 0xF065#16 0xF0FF#16 (fun w => .ldLoad (fieldX w)) ∧
  ∀ (x : Reg) (s : State),
    (s.i.toNat + x.val < 0x1000 → ∃ t, exec (.ldLoad x) s = .next t ∧
      (∀ k : Reg, k ≤ x → t.getV k = s.mem.read (s.i.toNat + k.val)) ∧
      (∀ k : Reg, x < k → t.getV k = s.getV k) ∧ t.pc = s.pc + 2#16 ∧
      FrameExcept [] ((List.finRange 16).filter (· ≤ x)) s t) ∧
    (0x1000 ≤ s.i.toNat + x.val → ∃ a : Word, a.toNat = max s.i.toNat 0x1000 ∧
      exec (.ldLoad x) s = .fault (.memoryOutOfRange a))

/-- A register dump and then a load with the same I and x restores V0..Vx, whatever the registers hold in between
(43_index_memory.md section 2). -/
def Obligations.StoreThenLoadRestoresRegisters : Prop :=
  ∀ (x : Reg) (s : State) (v : Vector Byte 16), s.i.toNat + x.val < 0x1000 →
    ∃ t u, exec (.ldStore x) s = .next t ∧ exec (.ldLoad x) { t with v := v } = .next u ∧
      ∀ k : Reg, k ≤ x → u.getV k = s.getV k

/-- Instruction fetch is coherent with data writes: two registers stored at an address are, high byte first, the word the
next fetch there reads, with no fence (20_memory.md section 5, an inference of the spec and its decision D27). -/
def Obligations.StoredBytesAreFetched : Prop :=
  ∀ (x k k' : Reg) (s : State) (p : Word), s.i.toNat + x.val < 0x1000 → k'.val = k.val + 1 → k' ≤ x →
    p.toNat = s.i.toNat + k.val →
    ∃ t, exec (.ldStore x) s = .next t ∧ fetchWord (t.setPc p) = .ok (wordOfBytes (s.getV k) (s.getV k'))

/-! ### Display -/

/-- CLS: every pixel becomes 0 and `framebuffer_changed` is reported, whatever the framebuffer held; VF and everything
else are unchanged (44_display.md R160). -/
def Obligations.ClsClearsTheScreen : Prop :=
  RowDecodesTo 0x00E0#16 0xFFFF#16 (fun _ => .cls) ∧
  ∀ s : State, ∃ t, exec .cls s = .next t ∧ (∀ y x, Framebuffer.pixel t.fb y x = false) ∧
    t.report.framebufferChanged = true ∧ t.report.beepEdge = s.report.beepEdge ∧
    t.pc = s.pc + 2#16 ∧ FrameExcept [.screen, .report] [] s t

/-- DRW: where the n rows at I are in memory, exactly the pixels under a 1 bit of the sprite drawn at (Vx, Vy), wrapped on
both axes, are flipped; VF is 1 exactly when one of them was set; n = 0 needs no memory. Otherwise it raises
`MemoryOutOfRange(max(I, 0x1000))`. The bit order, the 0 of VF, the row modulus and the error are the spec's decisions
D10, D11, D12 and D3 (44_display.md). -/
def Obligations.DrwXorsTheSprite : Prop :=
  RowDecodesTo 0xD000#16 0xF000#16 (fun w => .drw (fieldX w) (fieldY w) (fieldN w).toNat) ∧
  ∀ (x y : Reg) (n : Nat) (s : State), WellFormed (.drw x y n) = true →
    ((n = 0 ∨ s.i.toNat + n - 1 < 0x1000) → ∃ t, exec (.drw x y n) s = .next t ∧
      (∀ py px,
        (SpriteCovers s.mem s.i.toNat n (s.getV x).toNat (s.getV y).toNat py px →
          Framebuffer.pixel t.fb py px = !Framebuffer.pixel s.fb py px) ∧
        (¬ SpriteCovers s.mem s.i.toNat n (s.getV x).toNat (s.getV y).toNat py px →
          Framebuffer.pixel t.fb py px = Framebuffer.pixel s.fb py px)) ∧
      ((∃ py px, SpriteCovers s.mem s.i.toNat n (s.getV x).toNat (s.getV y).toNat py px ∧
          Framebuffer.pixel s.fb py px = true) → (t.getV vf).toNat = 1) ∧
      ((∀ py px, SpriteCovers s.mem s.i.toNat n (s.getV x).toNat (s.getV y).toNat py px →
          Framebuffer.pixel s.fb py px = false) → (t.getV vf).toNat = 0) ∧
      t.report.framebufferChanged = true ∧ t.report.beepEdge = s.report.beepEdge ∧
      t.pc = s.pc + 2#16 ∧ FrameExcept [.screen, .report] [vf] s t) ∧
    (1 ≤ n → 0x1000 ≤ s.i.toNat + n - 1 → ∃ a : Word, a.toNat = max s.i.toNat 0x1000 ∧
      exec (.drw x y n) s = .fault (.memoryOutOfRange a))

/-- Drawing the same sprite twice from the same origin gives back every pixel, and the second draw reports a collision
exactly when some pixel the sprite covers was clear before the first draw. The registers may change in between as long
as Vx and Vy hold the origin again, also with x or y = F; with x and y other than F the first draw leaves the origin
as it was (44_display.md; rests on the spec's decisions D10 to D12). -/
def Obligations.DrawingTwiceRestoresTheScreen : Prop :=
  ∀ (x y : Reg) (n : Nat) (s : State), WellFormed (.drw x y n) = true →
    (n = 0 ∨ s.i.toNat + n - 1 < 0x1000) →
    ∃ t, exec (.drw x y n) s = .next t ∧
      (x ≠ vf → t.getV x = s.getV x) ∧ (y ≠ vf → t.getV y = s.getV y) ∧
      ∀ v : Vector Byte 16, v[x.val] = s.getV x → v[y.val] = s.getV y →
        ∃ u, exec (.drw x y n) { t with v := v } = .next u ∧
          (∀ py px, Framebuffer.pixel u.fb py px = Framebuffer.pixel s.fb py px) ∧
          ((∃ py px, SpriteCovers s.mem s.i.toNat n (s.getV x).toNat (s.getV y).toNat py px ∧
              Framebuffer.pixel s.fb py px = false) → (u.getV vf).toNat = 1) ∧
          ((∀ py px, SpriteCovers s.mem s.i.toNat n (s.getV x).toNat (s.getV y).toNat py px →
              Framebuffer.pixel s.fb py px = true) → (u.getV vf).toNat = 0)

/-! ### Keys and timers -/

/-- SKP and SKNP: with Vx at most 0xF, pc advances by 4 or 2 as that key of the step's latch is pressed or not, and nothing
else changes, the latch included; above they raise `KeyIndexOutOfRange(Vx)` (45_keys_timers.md section 1, the spec's
decision D4). -/
def Obligations.KeySkipsReadTheLatch : Prop :=
  RowDecodesTo 0xE09E#16 0xF0FF#16 (fun w => .skp (fieldX w)) ∧
  RowDecodesTo 0xE0A1#16 0xF0FF#16 (fun w => .sknp (fieldX w)) ∧
  ∀ (x : Reg) (s : State),
    (∀ h : (s.getV x).toNat < 16,
      (∃ t, exec (.skp x) s = .next t ∧ t.pc = s.pc + (if s.keys[(s.getV x).toNat] = true then 4#16 else 2#16) ∧
        FrameExcept [] [] s t) ∧
      (∃ t, exec (.sknp x) s = .next t ∧ t.pc = s.pc + (if s.keys[(s.getV x).toNat] = true then 2#16 else 4#16) ∧
        FrameExcept [] [] s t)) ∧
    (0xF < (s.getV x).toNat → exec (.skp x) s = .fault (.keyIndexOutOfRange (s.getV x)) ∧
      exec (.sknp x) s = .fault (.keyIndexOutOfRange (s.getV x)))

/-- LD Vx, DT: Vx becomes DT as it stands before the step's timer update, which then takes one off DT
(45_keys_timers.md R172). -/
def Obligations.LdVxDtReadsTheDelayTimer : Prop :=
  RowDecodesTo 0xF007#16 0xF0FF#16 (fun w => .ldVxDt (fieldX w)) ∧
  ∀ (x : Reg) (s : State),
    (∃ t, exec (.ldVxDt x) s = .next t ∧ t.getV x = s.dt ∧ t.pc = s.pc + 2#16 ∧ FrameExcept [] [x] s t) ∧
    (fetchInstr s = .ok (.ldVxDt x) →
      ∃ t, step s = .next t ∧ t.getV x = s.dt ∧ t.dt.toNat = s.dt.toNat - 1 ∧ t.pc = s.pc + 2#16)

/-- LD Vx, K: with some key pressed, Vx becomes the lowest pressed key and pc advances by 2; with none, the instruction
completes and changes nothing, the step ticks the timers and reports no change of the framebuffer, and the same
instruction is fetched again (45_keys_timers.md R173). -/
def Obligations.LdVxKTakesTheLowestKeyOrWaits : Prop :=
  RowDecodesTo 0xF00A#16 0xF0FF#16 (fun w => .ldVxK (fieldX w)) ∧
  ∀ (x : Reg) (s : State),
    (∀ k : Fin 16, s.keys[k.val] = true → (∀ j : Fin 16, j < k → s.keys[j.val] = false) →
      ∃ t, exec (.ldVxK x) s = .next t ∧ (t.getV x).toNat = k.val ∧ t.pc = s.pc + 2#16 ∧ FrameExcept [] [x] s t) ∧
    ((∀ k : Fin 16, s.keys[k.val] = false) →
      exec (.ldVxK x) s = .next s ∧
      (fetchInstr s = .ok (.ldVxK x) → ∃ t, step s = .next t ∧ t.pc = s.pc ∧
        FrameExcept [.delayTimer, .soundTimer, .report, .stepInputs] [] s t ∧
        t.dt.toNat = s.dt.toNat - 1 ∧ t.st.toNat = s.st.toNat - 1 ∧
        t.report.framebufferChanged = false ∧ fetchInstr t = .ok (.ldVxK x)))

/-- LD DT, Vx and LD ST, Vx: the timer becomes Vx and nothing else changes; the step's timer update follows, so the timer
ends the step at Vx - 1 (or 0), and an ST set to 1 beeps in the same step (45_keys_timers.md section 3, which the spec
marks as derived). -/
def Obligations.TimerWritesTickInTheSameStep : Prop :=
  RowDecodesTo 0xF015#16 0xF0FF#16 (fun w => .ldDtVx (fieldX w)) ∧
  RowDecodesTo 0xF018#16 0xF0FF#16 (fun w => .ldStVx (fieldX w)) ∧
  ∀ (x : Reg) (s : State),
    (∃ t, exec (.ldDtVx x) s = .next t ∧ t.dt = s.getV x ∧ t.pc = s.pc + 2#16 ∧
      FrameExcept [.delayTimer] [] s t) ∧
    (∃ t, exec (.ldStVx x) s = .next t ∧ t.st = s.getV x ∧ t.pc = s.pc + 2#16 ∧
      FrameExcept [.soundTimer] [] s t) ∧
    (fetchInstr s = .ok (.ldDtVx x) → ∃ t, step s = .next t ∧ t.dt.toNat = (s.getV x).toNat - 1) ∧
    (fetchInstr s = .ok (.ldStVx x) → ∃ t, step s = .next t ∧ t.st.toNat = (s.getV x).toNat - 1 ∧
      (t.report.beepEdge = true ↔ (s.getV x).toNat = 1))

/-! ### The host interface -/

/-- `load_program`: an image of at most 3584 bytes is copied to 0x200 and up, and nothing else changes; a longer one fails
with `ImageTooLarge` (10_state.md section 8; when it may be called is the spec's decision D18). -/
def Obligations.LoadProgramCopiesTheImage : Prop :=
  ∀ (bytes : List Byte) (s : State),
    (bytes.length ≤ 3584 → ∃ t, loadProgram bytes s = .ok t ∧
      (∀ j (h : j < bytes.length), t.mem.read (0x200 + j) = bytes[j]) ∧
      SameBytesOutside 0x200 bytes.length s t ∧ FrameExcept [.memory] [] s t ∧ t.pc = s.pc) ∧
    (3584 < bytes.length → loadProgram bytes s = .error .imageTooLarge)

/-- `skip_word`: pc advances by 2 and nothing else changes, so after a word that raised an error the next word is fetched
(10_state.md section 8, the spec's decision D17). -/
def Obligations.SkipWordAdvancesPcOnly : Prop :=
  ∀ s : State, (skipWord s).pc = s.pc + 2#16 ∧ FrameExcept [] [] s (skipWord s) ∧
    snapshotForDiagnostics (skipWord s) = { snapshotForDiagnostics s with pc := s.pc + 2#16 } ∧
    framebuffer (skipWord s) = framebuffer s

/-- The latch and the draw a step reads are the ones the host supplies for it: an instruction that reads a key reads
that latch, and RND masks the draw taken from that raw byte; the inputs of the later steps stay as they were. The
draws are exactly the members of `RAND_RANGE` (10_state.md sections 5 and 8, 42_alu.md section 4; the range is the
spec's decision D6). That the host supplies a raw byte and the draw is taken from it is the model's choice (log
entries 2 and 5). -/
def Obligations.SuppliedInputsAreTheOnesRead : Prop :=
  (∀ b : Byte, RandRange.contains Config.randRange b = true ↔ ∃ raw, RandRange.draw Config.randRange raw = b) ∧
  ∀ (keys : KeyLatch) (raw : Byte) (s : State),
    (s.withInput keys raw).keys = keys ∧
    (s.withInput keys raw).rnd = RandRange.draw Config.randRange raw ∧
    FrameExcept [.stepInputs] [] s (s.withInput keys raw) ∧ (s.withInput keys raw).pc = s.pc ∧
    (∀ t rep, hostStep keys raw s = (t, .next rep) → t.inputs = s.inputs) ∧
    (∀ x nn, fetchInstr s = .ok (.rnd x nn) → ∃ t rep, hostStep keys raw s = (t, .next rep) ∧
      t.getV x = RandRange.draw Config.randRange raw &&& nn) ∧
    (∀ x (h : (s.getV x).toNat < 16), fetchInstr s = .ok (.skp x) → ∃ t rep, hostStep keys raw s = (t, .next rep) ∧
      t.pc = s.pc + (if keys[(s.getV x).toNat] = true then 4#16 else 2#16)) ∧
    (∀ x (h : (s.getV x).toNat < 16), fetchInstr s = .ok (.sknp x) → ∃ t rep, hostStep keys raw s = (t, .next rep) ∧
      t.pc = s.pc + (if keys[(s.getV x).toNat] = true then 2#16 else 4#16)) ∧
    (∀ x (k : Fin 16), fetchInstr s = .ok (.ldVxK x) → keys[k.val] = true →
      (∀ j : Fin 16, j < k → keys[j.val] = false) → ∃ t rep, hostStep keys raw s = (t, .next rep) ∧
        (t.getV x).toNat = k.val ∧ t.pc = s.pc + 2#16) ∧
    (∀ x, fetchInstr s = .ok (.ldVxK x) → (∀ k : Fin 16, keys[k.val] = false) →
      ∃ t rep, hostStep keys raw s = (t, .next rep) ∧ t.v = s.v ∧ t.pc = s.pc)

/-- The host's reads: `framebuffer()` returns every pixel of the framebuffer, and `snapshot_for_diagnostics()` the whole
state record, all nine fields (10_state.md section 8; that the snapshot holds the whole record is the spec's decision
D25, log entry 9). -/
def Obligations.HostReadsReturnTheState : Prop :=
  ∀ s : State,
    framebuffer s = s.fb ∧
    snapshotForDiagnostics s =
      { mem := s.mem, v := s.v, i := s.i, pc := s.pc, stack := s.stack, sp := s.sp, dt := s.dt, st := s.st, fb := s.fb }
end

