-- ==== Sys2Proof/Laws/Decode.lean ====
section
/-! SUPPORT. The fields of a word laid out in a format, the fields of a word known under a mask, and the two bytes of
a word. -/

namespace Sys2Proof

/-! ### Slices of appended words -/

/-- A slice that starts at or above the low part is a slice of the high part. -/
theorem extractLsb'_append_high {n m len start : Nat} (a : BitVec n) (b : BitVec m) (h : m ≤ start) :
    (a ++ b).extractLsb' start len = a.extractLsb' (start - m) len := by
  apply BitVec.eq_of_getLsbD_eq
  intro k hk
  rw [BitVec.getLsbD_extractLsb', BitVec.getLsbD_extractLsb', BitVec.getLsbD_append, if_neg (by omega),
    show start + k - m = start - m + k by omega]

/-- A slice inside the low part is a slice of the low part. -/
theorem extractLsb'_append_low {n m len start : Nat} (a : BitVec n) (b : BitVec m) (h : start + len ≤ m) :
    (a ++ b).extractLsb' start len = b.extractLsb' start len := by
  apply BitVec.eq_of_getLsbD_eq
  intro k hk
  rw [BitVec.getLsbD_extractLsb', BitVec.getLsbD_extractLsb', BitVec.getLsbD_append, if_pos (by omega)]

/-- The whole of a word as a slice. -/
theorem extractLsb'_whole {n : Nat} (a : BitVec n) : a.extractLsb' 0 n = a := by
  apply BitVec.eq_of_getLsbD_eq
  intro k hk
  simp [hk]

/-! ### Fields of the formats (30_encoding.md R81) -/

@[simp] theorem toFin_regBits (x : Reg) : (regBits x).toFin = x := rfl

@[simp] theorem fieldOp_formatNNN (op : BitVec 4) (nnn : Addr12) : fieldOp (formatNNN op nnn) = op := by
  unfold fieldOp formatNNN
  rw [extractLsb'_append_high _ _ (by omega)]
  exact extractLsb'_whole op

@[simp] theorem fieldNNN_formatNNN (op : BitVec 4) (nnn : Addr12) : fieldNNN (formatNNN op nnn) = nnn := by
  unfold fieldNNN formatNNN
  rw [extractLsb'_append_low _ _ (by omega)]
  exact extractLsb'_whole nnn

@[simp] theorem fieldOp_formatXNN (op : BitVec 4) (x : Reg) (nn : Byte) : fieldOp (formatXNN op x nn) = op := by
  unfold fieldOp formatXNN
  rw [extractLsb'_append_high _ _ (by omega), extractLsb'_append_high _ _ (by omega)]
  exact extractLsb'_whole op

@[simp] theorem fieldX_formatXNN (op : BitVec 4) (x : Reg) (nn : Byte) : fieldX (formatXNN op x nn) = x := by
  unfold fieldX formatXNN
  rw [extractLsb'_append_high _ _ (by omega), extractLsb'_append_low _ _ (by omega)]
  exact congrArg BitVec.toFin (extractLsb'_whole (regBits x))

@[simp] theorem fieldNN_formatXNN (op : BitVec 4) (x : Reg) (nn : Byte) : fieldNN (formatXNN op x nn) = nn := by
  unfold fieldNN formatXNN
  rw [extractLsb'_append_low _ _ (by omega)]
  exact extractLsb'_whole nn

@[simp] theorem fieldOp_formatXYN (op : BitVec 4) (x y : Reg) (n : BitVec 4) :
    fieldOp (formatXYN op x y n) = op := by
  unfold fieldOp formatXYN
  rw [extractLsb'_append_high _ _ (by omega), extractLsb'_append_high _ _ (by omega),
    extractLsb'_append_high _ _ (by omega)]
  exact extractLsb'_whole op

@[simp] theorem fieldX_formatXYN (op : BitVec 4) (x y : Reg) (n : BitVec 4) :
    fieldX (formatXYN op x y n) = x := by
  unfold fieldX formatXYN
  rw [extractLsb'_append_high _ _ (by omega), extractLsb'_append_high _ _ (by omega),
    extractLsb'_append_low _ _ (by omega)]
  exact congrArg BitVec.toFin (extractLsb'_whole (regBits x))

@[simp] theorem fieldY_formatXYN (op : BitVec 4) (x y : Reg) (n : BitVec 4) :
    fieldY (formatXYN op x y n) = y := by
  unfold fieldY formatXYN
  rw [extractLsb'_append_high _ _ (by omega), extractLsb'_append_low _ _ (by omega)]
  exact congrArg BitVec.toFin (extractLsb'_whole (regBits y))

@[simp] theorem fieldN_formatXYN (op : BitVec 4) (x y : Reg) (n : BitVec 4) :
    fieldN (formatXYN op x y n) = n := by
  unfold fieldN formatXYN
  rw [extractLsb'_append_low _ _ (by omega)]
  exact extractLsb'_whole n

/-! ### A word rebuilt from its fields -/

/-- A word is the format `NNN` of its fields. -/
theorem formatNNN_fields (w : Word) : formatNNN (fieldOp w) (fieldNNN w) = w := by
  apply BitVec.eq_of_getLsbD_eq
  intro k hk
  unfold formatNNN fieldOp fieldNNN
  rw [BitVec.getLsbD_append, BitVec.getLsbD_extractLsb', BitVec.getLsbD_extractLsb']
  split
  · next h => simp [h]
  · next h => rw [show 12 + (k - 12) = k by omega]; simp [show k - 12 < 4 by omega]

/-- A word is the format `XNN` of its fields. -/
theorem formatXNN_fields (w : Word) : formatXNN (fieldOp w) (fieldX w) (fieldNN w) = w := by
  apply BitVec.eq_of_getLsbD_eq
  intro k hk
  unfold formatXNN fieldOp fieldX fieldNN regBits
  rw [BitVec.getLsbD_append, BitVec.getLsbD_append, BitVec.getLsbD_extractLsb', BitVec.getLsbD_extractLsb',
    BitVec.getLsbD_extractLsb']
  split
  · next h => simp [h]
  · split
    · next h h' => rw [show 8 + (k - 8) = k by omega]; simp [h']
    · next h h' => rw [show 12 + (k - 8 - 4) = k by omega]; simp [show k - 8 - 4 < 4 by omega]

/-- A word is the format `XYN` of its fields. -/
theorem formatXYN_fields (w : Word) : formatXYN (fieldOp w) (fieldX w) (fieldY w) (fieldN w) = w := by
  apply BitVec.eq_of_getLsbD_eq
  intro k hk
  unfold formatXYN fieldOp fieldX fieldY fieldN regBits
  rw [BitVec.getLsbD_append, BitVec.getLsbD_append, BitVec.getLsbD_append, BitVec.getLsbD_extractLsb',
    BitVec.getLsbD_extractLsb', BitVec.getLsbD_extractLsb', BitVec.getLsbD_extractLsb']
  split
  · next h => simp [h]
  · split
    · next h h' => rw [show 4 + (k - 4) = k by omega]; simp [h']
    · split
      · next h h' h'' => rw [show 8 + (k - 4 - 4) = k by omega]; simp [h'']
      · next h h' h'' => rw [show 12 + (k - 4 - 4 - 4) = k by omega]; simp [show k - 4 - 4 - 4 < 4 by omega]

/-! ### Fields under a mask (30_encoding.md R90) -/

/-- A word and its masked copy have the same slice where the mask is all ones. -/
theorem extractLsb'_of_mask {w mask value : Word} (h : w &&& mask = value) (start len : Nat)
    (hm : mask.extractLsb' start len = BitVec.allOnes len) :
    w.extractLsb' start len = value.extractLsb' start len := by
  rw [← h, BitVec.extractLsb'_and, hm, BitVec.and_allOnes]

@[simp] theorem fieldOp_and (a b : Word) : fieldOp (a &&& b) = fieldOp a &&& fieldOp b := BitVec.extractLsb'_and

@[simp] theorem fieldN_and (a b : Word) : fieldN (a &&& b) = fieldN a &&& fieldN b := BitVec.extractLsb'_and

@[simp] theorem fieldNN_and (a b : Word) : fieldNN (a &&& b) = fieldNN a &&& fieldNN b := BitVec.extractLsb'_and

@[simp] theorem fieldNNN_and (a b : Word) : fieldNNN (a &&& b) = fieldNNN a &&& fieldNNN b := BitVec.extractLsb'_and

@[simp] theorem regBits_fieldX_and (a b : Word) :
    regBits (fieldX (a &&& b)) = regBits (fieldX a) &&& regBits (fieldX b) := BitVec.extractLsb'_and

@[simp] theorem regBits_fieldY_and (a b : Word) :
    regBits (fieldY (a &&& b)) = regBits (fieldY a) &&& regBits (fieldY b) := BitVec.extractLsb'_and

/-- Under mask 0xF000 a word of format `NNN` shows its group. -/
theorem formatNNN_mask (op : BitVec 4) (nnn : Addr12) :
    formatNNN op nnn &&& 0xF000#16 = formatNNN op 0#12 := by
  rw [← formatNNN_fields (formatNNN op nnn &&& 0xF000#16), fieldOp_and, fieldNNN_and, fieldOp_formatNNN,
    fieldNNN_formatNNN, show fieldOp 0xF000#16 = BitVec.allOnes 4 from rfl, show fieldNNN 0xF000#16 = 0#12 from rfl,
    BitVec.and_allOnes, BitVec.and_zero]

/-- Under mask 0xF000 a word of format `XNN` shows its group. -/
theorem formatXNN_mask_group (op : BitVec 4) (x : Reg) (nn : Byte) :
    formatXNN op x nn &&& 0xF000#16 = formatXNN op 0 0#8 := by
  have hx : fieldX (formatXNN op x nn &&& 0xF000#16) = 0 := by
    have h := regBits_fieldX_and (formatXNN op x nn) 0xF000#16
    rw [show regBits (fieldX 0xF000#16) = 0#4 from rfl, BitVec.and_zero] at h
    exact congrArg BitVec.toFin h
  rw [← formatXNN_fields (formatXNN op x nn &&& 0xF000#16), hx, fieldOp_and, fieldNN_and, fieldOp_formatXNN,
    show fieldOp 0xF000#16 = BitVec.allOnes 4 from rfl, show fieldNN 0xF000#16 = 0#8 from rfl,
    BitVec.and_allOnes, BitVec.and_zero]

/-- Under mask 0xF0FF a word of format `XFF` shows its group and its function byte. -/
theorem formatXNN_mask_function (op : BitVec 4) (x : Reg) (nn : Byte) :
    formatXNN op x nn &&& 0xF0FF#16 = formatXNN op 0 nn := by
  have hx : fieldX (formatXNN op x nn &&& 0xF0FF#16) = 0 := by
    have h := regBits_fieldX_and (formatXNN op x nn) 0xF0FF#16
    rw [show regBits (fieldX 0xF0FF#16) = 0#4 from rfl, BitVec.and_zero] at h
    exact congrArg BitVec.toFin h
  rw [← formatXNN_fields (formatXNN op x nn &&& 0xF0FF#16), hx, fieldOp_and, fieldNN_and, fieldOp_formatXNN,
    fieldNN_formatXNN, show fieldOp 0xF0FF#16 = BitVec.allOnes 4 from rfl,
    show fieldNN 0xF0FF#16 = BitVec.allOnes 8 from rfl, BitVec.and_allOnes, BitVec.and_allOnes]

/-- Under mask 0xF00F a word of format `XYF` shows its group and its function nibble. -/
theorem formatXYN_mask_function (op : BitVec 4) (x y : Reg) (n : BitVec 4) :
    formatXYN op x y n &&& 0xF00F#16 = formatXYN op 0 0 n := by
  have hx : fieldX (formatXYN op x y n &&& 0xF00F#16) = 0 := by
    have h := regBits_fieldX_and (formatXYN op x y n) 0xF00F#16
    rw [show regBits (fieldX 0xF00F#16) = 0#4 from rfl, BitVec.and_zero] at h
    exact congrArg BitVec.toFin h
  have hy : fieldY (formatXYN op x y n &&& 0xF00F#16) = 0 := by
    have h := regBits_fieldY_and (formatXYN op x y n) 0xF00F#16
    rw [show regBits (fieldY 0xF00F#16) = 0#4 from rfl, BitVec.and_zero] at h
    exact congrArg BitVec.toFin h
  rw [← formatXYN_fields (formatXYN op x y n &&& 0xF00F#16), hx, hy, fieldOp_and, fieldN_and, fieldOp_formatXYN,
    fieldN_formatXYN, show fieldOp 0xF00F#16 = BitVec.allOnes 4 from rfl,
    show fieldN 0xF00F#16 = BitVec.allOnes 4 from rfl, BitVec.and_allOnes, BitVec.and_allOnes]

/-- Under mask 0xF000 a word of format `XYN` shows its group. -/
theorem formatXYN_mask_group (op : BitVec 4) (x y : Reg) (n : BitVec 4) :
    formatXYN op x y n &&& 0xF000#16 = formatXYN op 0 0 0#4 := by
  have hx : fieldX (formatXYN op x y n &&& 0xF000#16) = 0 := by
    have h := regBits_fieldX_and (formatXYN op x y n) 0xF000#16
    rw [show regBits (fieldX 0xF000#16) = 0#4 from rfl, BitVec.and_zero] at h
    exact congrArg BitVec.toFin h
  have hy : fieldY (formatXYN op x y n &&& 0xF000#16) = 0 := by
    have h := regBits_fieldY_and (formatXYN op x y n) 0xF000#16
    rw [show regBits (fieldY 0xF000#16) = 0#4 from rfl, BitVec.and_zero] at h
    exact congrArg BitVec.toFin h
  rw [← formatXYN_fields (formatXYN op x y n &&& 0xF000#16), hx, hy, fieldOp_and, fieldN_and, fieldOp_formatXYN,
    show fieldOp 0xF000#16 = BitVec.allOnes 4 from rfl, show fieldN 0xF000#16 = 0#4 from rfl,
    BitVec.and_allOnes, BitVec.and_zero]

/-! ### The two bytes of a word (20_memory.md R64) -/

/-- The bytes of a word, high byte first, make the word. -/
@[simp] theorem wordOfBytes_highByte_lowByte (w : Word) : wordOfBytes (highByte w) (lowByte w) = w := by
  apply BitVec.eq_of_getLsbD_eq
  intro k hk
  unfold wordOfBytes highByte lowByte
  rw [BitVec.getLsbD_or, BitVec.getLsbD_shiftLeft, BitVec.getLsbD_setWidth, BitVec.getLsbD_setWidth,
    BitVec.getLsbD_extractLsb', BitVec.getLsbD_extractLsb']
  by_cases h : k < 8
  · simp [h, hk]
  · simp [h, hk, show k - 8 < 8 by omega, show k - 8 < 16 by omega, show 8 + (k - 8) = k by omega]

end Sys2Proof
end

