-- ==== Sys2Proof/Laws/Memory.lean ====
section
/-! SUPPORT. The laws of memory: a read after a write, and the canonical form kept by every operation. -/

namespace Sys2Proof.Machine

/-! ### Read after one write -/

theorem Memory.read_erase_same (m : Memory) (a : Nat) : (Memory.erase m a).read a = Memory.background a := by
  induction m with
  | nil => rfl
  | cons kc m ih =>
    obtain ⟨k, c⟩ := kc
    by_cases h : k = a
    · simpa [Memory.erase, h] using ih
    · simp [Memory.erase, h, Memory.read, Ne.symm h, ih]

theorem Memory.read_erase_other (m : Memory) {a e : Nat} (h : a ≠ e) : (Memory.erase m e).read a = m.read a := by
  induction m with
  | nil => rfl
  | cons kc m ih =>
    obtain ⟨k, c⟩ := kc
    by_cases hk : k = e
    · subst hk; simpa [Memory.erase, Memory.read, h] using ih
    · by_cases ha : a = k <;> simp [Memory.erase, Memory.read, hk, ha, ih]

theorem Memory.erase_not_mem (m : Memory) (a : Nat) : ∀ c ∈ Memory.erase m a, c.1 ≠ a := by
  induction m with
  | nil => simp [Memory.erase]
  | cons kc m ih =>
    obtain ⟨k, c⟩ := kc
    by_cases h : k = a
    · simpa [Memory.erase, h] using ih
    · simpa [Memory.erase, h] using ih

theorem Memory.read_insertCell_same (m : Memory) (a : Nat) (b : Byte) (h : ∀ c ∈ m, c.1 ≠ a) :
    (Memory.insertCell m a b).read a = b := by
  induction m with
  | nil => simp [Memory.insertCell, Memory.read]
  | cons kc m ih =>
    obtain ⟨k, c⟩ := kc
    have hk : a ≠ k := fun e => h (k, c) (by simp) e.symm
    have ih := ih fun c hc => h c (by simp [hc])
    by_cases hlt : a < k <;> simp [Memory.insertCell, Memory.read, hlt, hk, ih]

theorem Memory.read_insertCell_other (m : Memory) {a e : Nat} (b : Byte) (h : a ≠ e) :
    (Memory.insertCell m e b).read a = m.read a := by
  induction m with
  | nil => simp [Memory.insertCell, Memory.read, h]
  | cons kc m ih =>
    obtain ⟨k, c⟩ := kc
    by_cases hlt : e < k
    · simp [Memory.insertCell, Memory.read, hlt, h]
    · simp [Memory.insertCell, Memory.read, hlt, ih]

/-- A byte reads as it was last written. -/
@[simp] theorem Memory.read_write_same (m : Memory) (a : Nat) (b : Byte) : (m.write a b).read a = b := by
  unfold Memory.write
  split
  · next h => rw [Memory.read_erase_same, h]
  · exact Memory.read_insertCell_same _ _ _ (Memory.erase_not_mem m a)

/-- A write leaves every other byte alone. -/
theorem Memory.read_write_other (m : Memory) {a e : Nat} (b : Byte) (h : a ≠ e) :
    (m.write e b).read a = m.read a := by
  unfold Memory.write
  split
  · exact Memory.read_erase_other m h
  · rw [Memory.read_insertCell_other _ _ h, Memory.read_erase_other m h]

/-! ### Runs of bytes -/

/-- Outside the run, a run of writes changes nothing. -/
theorem Memory.read_writeBytes_outside (bs : List Byte) : ∀ (m : Memory) (lo a : Nat),
    (a < lo ∨ lo + bs.length ≤ a) → (m.writeBytes lo bs).read a = m.read a := by
  induction bs with
  | nil => intro m lo a _; rfl
  | cons b bs ih =>
    intro m lo a h
    simp only [List.length_cons] at h
    rw [Memory.writeBytes, ih _ _ _ (by omega), Memory.read_write_other _ _ (by omega)]

/-- Inside the run, each byte is the one written. -/
theorem Memory.read_writeBytes_inside (bs : List Byte) : ∀ (m : Memory) (lo k : Nat) (h : k < bs.length),
    (m.writeBytes lo bs).read (lo + k) = bs[k] := by
  induction bs with
  | nil => intro m lo k h; simp at h
  | cons b bs ih =>
    intro m lo k h
    cases k with
    | zero =>
      rw [Memory.writeBytes, Memory.read_writeBytes_outside _ _ _ _ (by omega)]
      simp
    | succ k =>
      have := ih (m.write lo b) (lo + 1) k (by simpa using h)
      rw [Memory.writeBytes, show lo + (k + 1) = lo + 1 + k by omega, this]
      simp

@[simp] theorem Memory.length_readBytes (m : Memory) (a n : Nat) : (m.readBytes a n).length = n := by
  induction n generalizing a with
  | zero => rfl
  | succ n ih => simp [Memory.readBytes, ih]

/-- The k-th byte of a run that is read. -/
theorem Memory.getElem_readBytes (m : Memory) : ∀ (n a k : Nat) (h : k < (m.readBytes a n).length),
    (m.readBytes a n)[k] = m.read (a + k) := by
  intro n
  induction n with
  | zero => intro a k h; simp [Memory.readBytes] at h
  | succ n ih =>
    intro a k h
    cases k with
    | zero => rfl
    | succ k =>
      simp only [Memory.readBytes, List.getElem_cons_succ, ih]
      congr 1; omega

/-! ### The canonical form -/

theorem Memory.wfFrom_mono {m : Memory} {lo lo' : Nat} (h : m.wfFrom lo = true) (hle : lo' ≤ lo) :
    m.wfFrom lo' = true := by
  cases m with
  | nil => rfl
  | cons kc m =>
    obtain ⟨k, c⟩ := kc
    simp only [Memory.wfFrom, Bool.and_eq_true, decide_eq_true_eq] at h ⊢
    exact ⟨⟨⟨by omega, h.1.1.2⟩, h.1.2⟩, h.2⟩

theorem Memory.wfFrom_erase {m : Memory} {lo : Nat} (a : Nat) (h : m.wfFrom lo = true) :
    (Memory.erase m a).wfFrom lo = true := by
  induction m generalizing lo with
  | nil => rfl
  | cons kc m ih =>
    obtain ⟨k, c⟩ := kc
    simp only [Memory.wfFrom, Bool.and_eq_true, decide_eq_true_eq] at h
    by_cases hk : k = a
    · simpa [Memory.erase, hk] using Memory.wfFrom_mono (ih h.2) (by omega)
    · simp only [Memory.erase, hk, if_false, Memory.wfFrom, Bool.and_eq_true, decide_eq_true_eq]
      exact ⟨h.1, ih h.2⟩

theorem Memory.wfFrom_insertCell {m : Memory} {lo a : Nat} {b : Byte} (h : m.wfFrom lo = true)
    (hlo : lo ≤ a) (hsz : a < Config.memSize) (hb : b ≠ Memory.background a) (hno : ∀ c ∈ m, c.1 ≠ a) :
    (Memory.insertCell m a b).wfFrom lo = true := by
  induction m generalizing lo with
  | nil => simp [Memory.insertCell, Memory.wfFrom, hlo, hsz, hb]
  | cons kc m ih =>
    obtain ⟨k, c⟩ := kc
    simp only [Memory.wfFrom, Bool.and_eq_true, decide_eq_true_eq] at h
    have hk : k ≠ a := hno (k, c) (by simp)
    by_cases hlt : a < k
    · simp only [Memory.insertCell, hlt, if_true, Memory.wfFrom, Bool.and_eq_true, decide_eq_true_eq]
      exact ⟨⟨⟨hlo, hsz⟩, hb⟩, ⟨⟨by omega, h.1.1.2⟩, h.1.2⟩, h.2⟩
    · simp only [Memory.insertCell, hlt, if_false, Memory.wfFrom, Bool.and_eq_true, decide_eq_true_eq]
      exact ⟨h.1, ih h.2 (by omega) fun c hc => hno c (by simp [hc])⟩

/-- A write inside the 4096 bytes keeps the canonical form. -/
theorem Memory.wf_write {m : Memory} {a : Nat} (b : Byte) (h : m.wf = true) (ha : a < Config.memSize) :
    (m.write a b).wf = true := by
  have he := Memory.wfFrom_erase a h
  unfold Memory.write
  split
  · exact he
  · next hb => exact Memory.wfFrom_insertCell he (Nat.zero_le a) ha hb (Memory.erase_not_mem m a)

/-- A run of writes inside the 4096 bytes keeps the canonical form. -/
theorem Memory.wf_writeBytes (bs : List Byte) : ∀ {m : Memory} {lo : Nat}, m.wf = true →
    lo + bs.length ≤ Config.memSize → (m.writeBytes lo bs).wf = true := by
  induction bs with
  | nil => intro m lo h _; exact h
  | cons b bs ih =>
    intro m lo h hle
    simp only [List.length_cons] at hle
    exact ih (Memory.wf_write b h (by omega)) (by omega)

/-- In canonical form every listed address is at least the lower bound. -/
theorem Memory.le_of_mem_wfFrom {m : Memory} {lo : Nat} (h : m.wfFrom lo = true) : ∀ c ∈ m, lo ≤ c.1 := by
  induction m generalizing lo with
  | nil => simp
  | cons kc m ih =>
    obtain ⟨k, c⟩ := kc
    simp only [Memory.wfFrom, Bool.and_eq_true, decide_eq_true_eq] at h
    intro d hd
    rcases List.mem_cons.1 hd with rfl | hd
    · exact h.1.1.1
    · have := ih h.2 d hd; omega

/-- Below its lower bound a canonical memory reads as the reset contents. -/
theorem Memory.read_below {m : Memory} {lo a : Nat} (h : m.wfFrom lo = true) (ha : a < lo) :
    m.read a = Memory.background a := by
  induction m generalizing lo with
  | nil => rfl
  | cons kc m ih =>
    obtain ⟨k, c⟩ := kc
    simp only [Memory.wfFrom, Bool.and_eq_true, decide_eq_true_eq] at h
    have hk : a ≠ k := by omega
    simp only [Memory.read, hk, if_false]
    exact ih h.2 (by omega)

/-- Two canonical memories that read alike are the same list: equal memories are equal data. -/
theorem Memory.eq_of_read_eq {m n : Memory} {lo : Nat} (hm : m.wfFrom lo = true) (hn : n.wfFrom lo = true)
    (h : ∀ a, m.read a = n.read a) : m = n := by
  induction m generalizing n lo with
  | nil =>
    cases n with
    | nil => rfl
    | cons kd n =>
      obtain ⟨k, d⟩ := kd
      simp only [Memory.wfFrom, Bool.and_eq_true, decide_eq_true_eq] at hn
      exact absurd (by simpa [Memory.read] using (h k).symm) hn.1.2
  | cons kc m ih =>
    obtain ⟨k, c⟩ := kc
    have hm' := hm
    simp only [Memory.wfFrom, Bool.and_eq_true, decide_eq_true_eq] at hm
    cases n with
    | nil => exact absurd (by simpa [Memory.read] using h k) hm.1.2
    | cons jd n =>
      obtain ⟨j, d⟩ := jd
      have hn' := hn
      simp only [Memory.wfFrom, Bool.and_eq_true, decide_eq_true_eq] at hn
      have hkj : k = j := by
        rcases Nat.lt_trichotomy k j with hlt | heq | hgt
        · have h1 := h k
          rw [show Memory.read ((j, d) :: n) k = Memory.background k from
            Memory.read_below (lo := j) (by
              simp only [Memory.wfFrom, Bool.and_eq_true, decide_eq_true_eq]
              exact ⟨⟨⟨Nat.le_refl j, hn.1.1.2⟩, hn.1.2⟩, hn.2⟩) hlt] at h1
          exact absurd (by simpa [Memory.read] using h1) hm.1.2
        · exact heq
        · have h1 := h j
          rw [show Memory.read ((k, c) :: m) j = Memory.background j from
            Memory.read_below (lo := k) (by
              simp only [Memory.wfFrom, Bool.and_eq_true, decide_eq_true_eq]
              exact ⟨⟨⟨Nat.le_refl k, hm.1.1.2⟩, hm.1.2⟩, hm.2⟩) hgt] at h1
          exact absurd (by simpa [Memory.read] using h1.symm) hn.1.2
      subst hkj
      have hcd : c = d := by simpa [Memory.read] using h k
      subst hcd
      congr 1
      refine ih hm.2 hn.2 fun a => ?_
      by_cases ha : a = k
      · subst ha
        rw [Memory.read_below hm.2 (by omega), Memory.read_below hn.2 (by omega)]
      · simpa [Memory.read, ha] using h a

end Sys2Proof.Machine
end

