-- ==== Sys2Proof/Laws/State.lean ====
section
/-! SUPPORT. One lemma per field per update of the state, each true by rfl, so that no proof unfolds a record update;
and the register file's read-after-write laws. -/

namespace Sys2Proof.Machine

variable (s : State)

/-! ### State.setV -/

@[simp] theorem State.setV_mem (x : Reg) (b : Byte) : (s.setV x b).mem = s.mem := rfl
@[simp] theorem State.setV_v (x : Reg) (b : Byte) : (s.setV x b).v = s.v.set x.val b x.isLt := rfl
@[simp] theorem State.setV_i (x : Reg) (b : Byte) : (s.setV x b).i = s.i := rfl
@[simp] theorem State.setV_pc (x : Reg) (b : Byte) : (s.setV x b).pc = s.pc := rfl
@[simp] theorem State.setV_stack (x : Reg) (b : Byte) : (s.setV x b).stack = s.stack := rfl
@[simp] theorem State.setV_sp (x : Reg) (b : Byte) : (s.setV x b).sp = s.sp := rfl
@[simp] theorem State.setV_dt (x : Reg) (b : Byte) : (s.setV x b).dt = s.dt := rfl
@[simp] theorem State.setV_st (x : Reg) (b : Byte) : (s.setV x b).st = s.st := rfl
@[simp] theorem State.setV_fb (x : Reg) (b : Byte) : (s.setV x b).fb = s.fb := rfl
@[simp] theorem State.setV_report (x : Reg) (b : Byte) : (s.setV x b).report = s.report := rfl
@[simp] theorem State.setV_inputs (x : Reg) (b : Byte) : (s.setV x b).inputs = s.inputs := rfl
@[simp] theorem State.setV_inputSeq (x : Reg) (b : Byte) : (s.setV x b).inputSeq = s.inputSeq := rfl

/-! ### State.setI -/

@[simp] theorem State.setI_mem (w : Word) : (s.setI w).mem = s.mem := rfl
@[simp] theorem State.setI_v (w : Word) : (s.setI w).v = s.v := rfl
@[simp] theorem State.setI_i (w : Word) : (s.setI w).i = w := rfl
@[simp] theorem State.setI_pc (w : Word) : (s.setI w).pc = s.pc := rfl
@[simp] theorem State.setI_stack (w : Word) : (s.setI w).stack = s.stack := rfl
@[simp] theorem State.setI_sp (w : Word) : (s.setI w).sp = s.sp := rfl
@[simp] theorem State.setI_dt (w : Word) : (s.setI w).dt = s.dt := rfl
@[simp] theorem State.setI_st (w : Word) : (s.setI w).st = s.st := rfl
@[simp] theorem State.setI_fb (w : Word) : (s.setI w).fb = s.fb := rfl
@[simp] theorem State.setI_report (w : Word) : (s.setI w).report = s.report := rfl
@[simp] theorem State.setI_inputs (w : Word) : (s.setI w).inputs = s.inputs := rfl
@[simp] theorem State.setI_inputSeq (w : Word) : (s.setI w).inputSeq = s.inputSeq := rfl

/-! ### State.setPc -/

@[simp] theorem State.setPc_mem (w : Word) : (s.setPc w).mem = s.mem := rfl
@[simp] theorem State.setPc_v (w : Word) : (s.setPc w).v = s.v := rfl
@[simp] theorem State.setPc_i (w : Word) : (s.setPc w).i = s.i := rfl
@[simp] theorem State.setPc_pc (w : Word) : (s.setPc w).pc = w := rfl
@[simp] theorem State.setPc_stack (w : Word) : (s.setPc w).stack = s.stack := rfl
@[simp] theorem State.setPc_sp (w : Word) : (s.setPc w).sp = s.sp := rfl
@[simp] theorem State.setPc_dt (w : Word) : (s.setPc w).dt = s.dt := rfl
@[simp] theorem State.setPc_st (w : Word) : (s.setPc w).st = s.st := rfl
@[simp] theorem State.setPc_fb (w : Word) : (s.setPc w).fb = s.fb := rfl
@[simp] theorem State.setPc_report (w : Word) : (s.setPc w).report = s.report := rfl
@[simp] theorem State.setPc_inputs (w : Word) : (s.setPc w).inputs = s.inputs := rfl
@[simp] theorem State.setPc_inputSeq (w : Word) : (s.setPc w).inputSeq = s.inputSeq := rfl

/-! ### State.advance -/

@[simp] theorem State.advance_mem (k : Word) : (s.advance k).mem = s.mem := rfl
@[simp] theorem State.advance_v (k : Word) : (s.advance k).v = s.v := rfl
@[simp] theorem State.advance_i (k : Word) : (s.advance k).i = s.i := rfl
@[simp] theorem State.advance_pc (k : Word) : (s.advance k).pc = s.pc + k := rfl
@[simp] theorem State.advance_stack (k : Word) : (s.advance k).stack = s.stack := rfl
@[simp] theorem State.advance_sp (k : Word) : (s.advance k).sp = s.sp := rfl
@[simp] theorem State.advance_dt (k : Word) : (s.advance k).dt = s.dt := rfl
@[simp] theorem State.advance_st (k : Word) : (s.advance k).st = s.st := rfl
@[simp] theorem State.advance_fb (k : Word) : (s.advance k).fb = s.fb := rfl
@[simp] theorem State.advance_report (k : Word) : (s.advance k).report = s.report := rfl
@[simp] theorem State.advance_inputs (k : Word) : (s.advance k).inputs = s.inputs := rfl
@[simp] theorem State.advance_inputSeq (k : Word) : (s.advance k).inputSeq = s.inputSeq := rfl

/-! ### State.nextInstr -/

@[simp] theorem State.nextInstr_mem : s.nextInstr.mem = s.mem := rfl
@[simp] theorem State.nextInstr_v : s.nextInstr.v = s.v := rfl
@[simp] theorem State.nextInstr_i : s.nextInstr.i = s.i := rfl
@[simp] theorem State.nextInstr_pc : s.nextInstr.pc = s.pc + 2 := rfl
@[simp] theorem State.nextInstr_stack : s.nextInstr.stack = s.stack := rfl
@[simp] theorem State.nextInstr_sp : s.nextInstr.sp = s.sp := rfl
@[simp] theorem State.nextInstr_dt : s.nextInstr.dt = s.dt := rfl
@[simp] theorem State.nextInstr_st : s.nextInstr.st = s.st := rfl
@[simp] theorem State.nextInstr_fb : s.nextInstr.fb = s.fb := rfl
@[simp] theorem State.nextInstr_report : s.nextInstr.report = s.report := rfl
@[simp] theorem State.nextInstr_inputs : s.nextInstr.inputs = s.inputs := rfl
@[simp] theorem State.nextInstr_inputSeq : s.nextInstr.inputSeq = s.inputSeq := rfl

/-! ### State.skipIf -/

@[simp] theorem State.skipIf_mem (c : Bool) : (s.skipIf c).mem = s.mem := rfl
@[simp] theorem State.skipIf_v (c : Bool) : (s.skipIf c).v = s.v := rfl
@[simp] theorem State.skipIf_i (c : Bool) : (s.skipIf c).i = s.i := rfl
@[simp] theorem State.skipIf_pc (c : Bool) : (s.skipIf c).pc = s.pc + (if c then 4 else 2) := rfl
@[simp] theorem State.skipIf_stack (c : Bool) : (s.skipIf c).stack = s.stack := rfl
@[simp] theorem State.skipIf_sp (c : Bool) : (s.skipIf c).sp = s.sp := rfl
@[simp] theorem State.skipIf_dt (c : Bool) : (s.skipIf c).dt = s.dt := rfl
@[simp] theorem State.skipIf_st (c : Bool) : (s.skipIf c).st = s.st := rfl
@[simp] theorem State.skipIf_fb (c : Bool) : (s.skipIf c).fb = s.fb := rfl
@[simp] theorem State.skipIf_report (c : Bool) : (s.skipIf c).report = s.report := rfl
@[simp] theorem State.skipIf_inputs (c : Bool) : (s.skipIf c).inputs = s.inputs := rfl
@[simp] theorem State.skipIf_inputSeq (c : Bool) : (s.skipIf c).inputSeq = s.inputSeq := rfl

/-! ### State.showFb -/

@[simp] theorem State.showFb_mem (f : Framebuffer) : (s.showFb f).mem = s.mem := rfl
@[simp] theorem State.showFb_v (f : Framebuffer) : (s.showFb f).v = s.v := rfl
@[simp] theorem State.showFb_i (f : Framebuffer) : (s.showFb f).i = s.i := rfl
@[simp] theorem State.showFb_pc (f : Framebuffer) : (s.showFb f).pc = s.pc := rfl
@[simp] theorem State.showFb_stack (f : Framebuffer) : (s.showFb f).stack = s.stack := rfl
@[simp] theorem State.showFb_sp (f : Framebuffer) : (s.showFb f).sp = s.sp := rfl
@[simp] theorem State.showFb_dt (f : Framebuffer) : (s.showFb f).dt = s.dt := rfl
@[simp] theorem State.showFb_st (f : Framebuffer) : (s.showFb f).st = s.st := rfl
@[simp] theorem State.showFb_fb (f : Framebuffer) : (s.showFb f).fb = f := rfl
@[simp] theorem State.showFb_report (f : Framebuffer) : (s.showFb f).report = { s.report with framebufferChanged := true } := rfl
@[simp] theorem State.showFb_inputs (f : Framebuffer) : (s.showFb f).inputs = s.inputs := rfl
@[simp] theorem State.showFb_inputSeq (f : Framebuffer) : (s.showFb f).inputSeq = s.inputSeq := rfl

/-! ### State.consumeInput -/

@[simp] theorem State.consumeInput_mem : s.consumeInput.mem = s.mem := rfl
@[simp] theorem State.consumeInput_v : s.consumeInput.v = s.v := rfl
@[simp] theorem State.consumeInput_i : s.consumeInput.i = s.i := rfl
@[simp] theorem State.consumeInput_pc : s.consumeInput.pc = s.pc := rfl
@[simp] theorem State.consumeInput_stack : s.consumeInput.stack = s.stack := rfl
@[simp] theorem State.consumeInput_sp : s.consumeInput.sp = s.sp := rfl
@[simp] theorem State.consumeInput_dt : s.consumeInput.dt = s.dt := rfl
@[simp] theorem State.consumeInput_st : s.consumeInput.st = s.st := rfl
@[simp] theorem State.consumeInput_fb : s.consumeInput.fb = s.fb := rfl
@[simp] theorem State.consumeInput_report : s.consumeInput.report = s.report := rfl
@[simp] theorem State.consumeInput_inputs : s.consumeInput.inputs = s.inputs.tail := rfl
@[simp] theorem State.consumeInput_inputSeq : s.consumeInput.inputSeq = s.inputSeq + 1 := rfl

/-! ### State.withInput -/

@[simp] theorem State.withInput_mem (k : KeyLatch) (r : Byte) : (s.withInput k r).mem = s.mem := rfl
@[simp] theorem State.withInput_v (k : KeyLatch) (r : Byte) : (s.withInput k r).v = s.v := rfl
@[simp] theorem State.withInput_i (k : KeyLatch) (r : Byte) : (s.withInput k r).i = s.i := rfl
@[simp] theorem State.withInput_pc (k : KeyLatch) (r : Byte) : (s.withInput k r).pc = s.pc := rfl
@[simp] theorem State.withInput_stack (k : KeyLatch) (r : Byte) : (s.withInput k r).stack = s.stack := rfl
@[simp] theorem State.withInput_sp (k : KeyLatch) (r : Byte) : (s.withInput k r).sp = s.sp := rfl
@[simp] theorem State.withInput_dt (k : KeyLatch) (r : Byte) : (s.withInput k r).dt = s.dt := rfl
@[simp] theorem State.withInput_st (k : KeyLatch) (r : Byte) : (s.withInput k r).st = s.st := rfl
@[simp] theorem State.withInput_fb (k : KeyLatch) (r : Byte) : (s.withInput k r).fb = s.fb := rfl
@[simp] theorem State.withInput_report (k : KeyLatch) (r : Byte) : (s.withInput k r).report = s.report := rfl
@[simp] theorem State.withInput_inputs (k : KeyLatch) (r : Byte) : (s.withInput k r).inputs = ⟨k, r⟩ :: s.inputs := rfl
@[simp] theorem State.withInput_inputSeq (k : KeyLatch) (r : Byte) : (s.withInput k r).inputSeq = s.inputSeq := rfl
@[simp] theorem State.withInput_keys (k : KeyLatch) (r : Byte) : (s.withInput k r).keys = k := rfl
@[simp] theorem State.withInput_rnd (k : KeyLatch) (r : Byte) :
    (s.withInput k r).rnd = RandRange.draw Config.randRange r := rfl

/-! ### timerUpdate -/

@[simp] theorem timerUpdate_mem : (timerUpdate s).mem = s.mem := rfl
@[simp] theorem timerUpdate_v : (timerUpdate s).v = s.v := rfl
@[simp] theorem timerUpdate_i : (timerUpdate s).i = s.i := rfl
@[simp] theorem timerUpdate_pc : (timerUpdate s).pc = s.pc := rfl
@[simp] theorem timerUpdate_stack : (timerUpdate s).stack = s.stack := rfl
@[simp] theorem timerUpdate_sp : (timerUpdate s).sp = s.sp := rfl
@[simp] theorem timerUpdate_dt : (timerUpdate s).dt = tick s.dt := rfl
@[simp] theorem timerUpdate_st : (timerUpdate s).st = tick s.st := rfl
@[simp] theorem timerUpdate_fb : (timerUpdate s).fb = s.fb := rfl
@[simp] theorem timerUpdate_report : (timerUpdate s).report = { s.report with beepEdge := decide (s.st = 1) } := rfl
@[simp] theorem timerUpdate_inputs : (timerUpdate s).inputs = s.inputs := rfl
@[simp] theorem timerUpdate_inputSeq : (timerUpdate s).inputSeq = s.inputSeq := rfl

/-! ### beginStep -/

@[simp] theorem beginStep_mem : (beginStep s).mem = s.mem := rfl
@[simp] theorem beginStep_v : (beginStep s).v = s.v := rfl
@[simp] theorem beginStep_i : (beginStep s).i = s.i := rfl
@[simp] theorem beginStep_pc : (beginStep s).pc = s.pc := rfl
@[simp] theorem beginStep_stack : (beginStep s).stack = s.stack := rfl
@[simp] theorem beginStep_sp : (beginStep s).sp = s.sp := rfl
@[simp] theorem beginStep_dt : (beginStep s).dt = s.dt := rfl
@[simp] theorem beginStep_st : (beginStep s).st = s.st := rfl
@[simp] theorem beginStep_fb : (beginStep s).fb = s.fb := rfl
@[simp] theorem beginStep_report : (beginStep s).report = ⟨false, false⟩ := rfl
@[simp] theorem beginStep_inputs : (beginStep s).inputs = s.inputs := rfl
@[simp] theorem beginStep_inputSeq : (beginStep s).inputSeq = s.inputSeq := rfl
@[simp] theorem beginStep_keys : (beginStep s).keys = s.keys := rfl
@[simp] theorem beginStep_rnd : (beginStep s).rnd = s.rnd := rfl

/-! ### endStep -/

@[simp] theorem endStep_mem : (endStep s).mem = s.mem := rfl
@[simp] theorem endStep_v : (endStep s).v = s.v := rfl
@[simp] theorem endStep_i : (endStep s).i = s.i := rfl
@[simp] theorem endStep_pc : (endStep s).pc = s.pc := rfl
@[simp] theorem endStep_stack : (endStep s).stack = s.stack := rfl
@[simp] theorem endStep_sp : (endStep s).sp = s.sp := rfl
@[simp] theorem endStep_dt : (endStep s).dt = tick s.dt := rfl
@[simp] theorem endStep_st : (endStep s).st = tick s.st := rfl
@[simp] theorem endStep_fb : (endStep s).fb = s.fb := rfl
@[simp] theorem endStep_report : (endStep s).report = { s.report with beepEdge := decide (s.st = 1) } := rfl
@[simp] theorem endStep_inputs : (endStep s).inputs = s.inputs.tail := rfl
@[simp] theorem endStep_inputSeq : (endStep s).inputSeq = s.inputSeq + 1 := rfl

/-! ### V registers -/

/-- A register holds the value just written to it. -/
@[simp] theorem State.getV_setV_same (x : Reg) (b : Byte) : (s.setV x b).getV x = b := by
  simp [State.getV]

/-- Writing a register leaves the others alone. -/
theorem State.getV_setV_other {x r : Reg} (b : Byte) (h : r ≠ x) : (s.setV x b).getV r = s.getV r := by
  have : x.val ≠ r.val := fun e => h (Fin.ext e.symm)
  simp [State.getV, Vector.getElem_set_ne _ _ this]

/-- Reading any register after writing one. -/
theorem State.getV_setV (x r : Reg) (b : Byte) : (s.setV x b).getV r = if r = x then b else s.getV r := by
  by_cases h : r = x
  · subst h; simp
  · simp [h, State.getV_setV_other s b h]

@[simp] theorem State.setI_getV (w : Word) (x : Reg) : (s.setI w).getV x = s.getV x := rfl
@[simp] theorem State.setPc_getV (w : Word) (x : Reg) : (s.setPc w).getV x = s.getV x := rfl
@[simp] theorem State.advance_getV (k : Word) (x : Reg) : (s.advance k).getV x = s.getV x := rfl
@[simp] theorem State.nextInstr_getV (x : Reg) : s.nextInstr.getV x = s.getV x := rfl
@[simp] theorem State.skipIf_getV (c : Bool) (x : Reg) : (s.skipIf c).getV x = s.getV x := rfl
@[simp] theorem State.showFb_getV (f : Framebuffer) (x : Reg) : (s.showFb f).getV x = s.getV x := rfl
@[simp] theorem State.consumeInput_getV (x : Reg) : s.consumeInput.getV x = s.getV x := rfl
@[simp] theorem State.withInput_getV (k : KeyLatch) (r : Byte) (x : Reg) : (s.withInput k r).getV x = s.getV x := rfl
@[simp] theorem timerUpdate_getV (x : Reg) : (timerUpdate s).getV x = s.getV x := rfl
@[simp] theorem beginStep_getV (x : Reg) : (beginStep s).getV x = s.getV x := rfl
@[simp] theorem endStep_getV (x : Reg) : (endStep s).getV x = s.getV x := rfl

end Sys2Proof.Machine
end

