-- ==== Sys2Proof/Laws/Ops.lean ====
section
/-! SUPPORT. One lemma per shared operation that says once everything it can do. -/

namespace Sys2Proof.Machine

/-! ### Errors -/

@[simp] theorem whenOk_ok {α : Type} (a : α) (k : α → Result) : whenOk (.ok a) k = k a := rfl

@[simp] theorem whenOk_error {α : Type} (e : Fault) (k : α → Result) : whenOk (.error e) k = .fault e := rfl

/-- A checked meaning answers a next state exactly when its check passes and the rest does. -/
theorem whenOk_next_iff {α : Type} {c : Except Fault α} {k : α → Result} {t : State} :
    whenOk c k = .next t ↔ ∃ a, c = .ok a ∧ k a = .next t := by
  cases c <;> simp

/-- A checked meaning faults when its check fails, or when the rest faults. -/
theorem whenOk_fault_iff {α : Type} {c : Except Fault α} {k : α → Result} {e : Fault} :
    whenOk c k = .fault e ↔ c = .error e ∨ ∃ a, c = .ok a ∧ k a = .fault e := by
  cases c <;> simp

/-! ### The range check -/

/-- A range is in range when its last byte is below 0x1000; an empty one always is (20_memory.md R63). -/
theorem inRange_iff {a : Word} {n : Nat} : inRange a n = true ↔ n = 0 ∨ a.toNat + n ≤ 0x1000 := by
  simp only [inRange, decide_eq_true_eq, Config.memSize]
  omega

theorem checkRange_ok {a : Word} {n : Nat} (h : inRange a n = true) : checkRange a n = .ok () := by
  simp [checkRange, h]

theorem checkRange_error {a : Word} {n : Nat} (h : inRange a n = false) :
    checkRange a n = .error (.memoryOutOfRange (lowestOutOfRange a)) := by
  simp [checkRange, h]

/-- The carried address is `max(a, 0x1000)` (20_memory.md R63). -/
theorem toNat_lowestOutOfRange (a : Word) : (lowestOutOfRange a).toNat = max a.toNat 0x1000 := by
  unfold lowestOutOfRange
  split
  · next h => have : a.toNat < 0x1000 := h; rw [Nat.max_eq_right (by omega)]; rfl
  · next h =>
    have : ¬ a.toNat < 0x1000 := h
    rw [Nat.max_eq_left (by omega)]

/-- A checked load: the bytes where the range fits, else the error. -/
theorem loadBytes_eq (s : State) (a : Word) (n : Nat) :
    loadBytes s a n = if inRange a n then .ok (s.mem.readBytes a.toNat n)
      else .error (.memoryOutOfRange (lowestOutOfRange a)) := by
  unfold loadBytes checkRange
  cases inRange a n <;> rfl

/-- A checked store: the whole run where the range fits, else the error and nothing written. -/
theorem storeBytes_eq (s : State) (a : Word) (bs : List Byte) :
    storeBytes s a bs = if inRange a bs.length then .ok { s with mem := s.mem.writeBytes a.toNat bs }
      else .error (.memoryOutOfRange (lowestOutOfRange a)) := by
  unfold storeBytes checkRange
  cases inRange a bs.length <;> rfl

/-! ### Register ranges -/

@[simp] theorem length_regsUpTo (s : State) (x : Reg) : (regsUpTo s x).length = x.val + 1 := by
  simp [regsUpTo]

theorem getElem_regsUpTo (s : State) (x : Reg) (k : Nat) (h : k < (regsUpTo s x).length) :
    (regsUpTo s x)[k] = s.getV ⟨k, by have := x.isLt; simp at h; omega⟩ := by
  simp [regsUpTo, State.getV]

/-- A register after a run of bytes is loaded from register `k` up. -/
theorem getElem_loadRegsFrom (bs : List Byte) : ∀ (v : Vector Byte 16) (k r : Nat) (hr : r < 16),
    (loadRegsFrom v k bs)[r] = if h : k ≤ r ∧ r < k + bs.length then bs[r - k]'(by omega) else v[r] := by
  induction bs with
  | nil => intro v k r hr; simp [loadRegsFrom]
  | cons b bs ih =>
    intro v k r hr
    rw [loadRegsFrom, ih]
    simp only [List.length_cons]
    by_cases h1 : k + 1 ≤ r ∧ r < k + 1 + bs.length
    · have h2 : k ≤ r ∧ r < k + (bs.length + 1) := by omega
      rw [dif_pos h1, dif_pos h2, List.getElem_cons, dif_neg (by omega)]
      congr 1
    · rw [dif_neg h1]
      by_cases h2 : r = k
      · subst h2
        have h3 : r ≤ r ∧ r < r + (bs.length + 1) := by omega
        simp [hr]
      · have h3 : ¬ (k ≤ r ∧ r < k + (bs.length + 1)) := by omega
        rw [dif_neg h3]
        split
        · exact Vector.getElem_set_ne _ _ (Ne.symm h2)
        · rfl

/-! ### The stack -/

/-- A push below 16 entries fills the next free slot. -/
theorem push_ok (s : State) (w : Word) (h : s.sp.val < 16) :
    push s w = .ok { s with stack := s.stack.set s.sp.val w h, sp := ⟨s.sp.val + 1, Nat.succ_lt_succ h⟩ } := by
  simp [push, h]

/-- A push at 16 entries overflows. -/
theorem push_full (s : State) (w : Word) (h : s.sp.val = 16) : push s w = .error .stackOverflow := by
  simp [push, h]

/-- A pop at no entries underflows. -/
theorem pop_empty (s : State) (h : s.sp.val = 0) : pop s = .error .stackUnderflow := by
  unfold pop
  split
  · rfl
  · next hs => rw [hs] at h; simp at h

/-- A pop above no entries gives the last slot and leaves it as it is. -/
theorem pop_ok (s : State) (h : 0 < s.sp.val) :
    ∃ p, pop s = .ok p ∧ p.1 = s.stack[s.sp.val - 1]'(by omega) ∧
      p.2 = { s with sp := ⟨s.sp.val - 1, by omega⟩ } := by
  unfold pop
  split
  · next hs => rw [hs] at h; simp at h
  · next k hk hs =>
    refine ⟨_, rfl, ?_, ?_⟩
    · simp [hs]
    · simp [hs]

/-! ### Timers and draws -/

/-- A tick takes one off, clamped at 0 (10_state.md R39). -/
theorem toNat_tick (t : Byte) : (tick t).toNat = t.toNat - 1 := by
  unfold tick
  split
  · next h => subst h; rfl
  · next h =>
    have : t.toNat ≠ 0 := fun e => h (BitVec.eq_of_toNat_eq e)
    have := t.isLt
    rw [BitVec.toNat_sub]
    simp
    omega

/-- Every draw is a member of the range (10_state.md R44). -/
theorem RandRange.contains_draw (r : RandRange) (raw : Byte) :
    RandRange.contains r (RandRange.draw r raw) = true := by
  by_cases h : raw = 0
  · subst h; cases r <;> rfl
  · cases r <;> simp only [RandRange.contains, RandRange.draw, if_neg h, decide_eq_true_eq]; exact h

/-- Every member of the range is a possible draw. -/
theorem RandRange.draw_of_contains {r : RandRange} {b : Byte} (h : RandRange.contains r b = true) :
    RandRange.draw r b = b := by
  cases r <;> simp_all [RandRange.contains, RandRange.draw]

/-- The possible draws are exactly the members of the range (42_alu.md R135). -/
theorem RandRange.contains_iff_draw {r : RandRange} {b : Byte} :
    RandRange.contains r b = true ↔ ∃ raw, RandRange.draw r raw = b :=
  ⟨fun h => ⟨b, RandRange.draw_of_contains h⟩, fun ⟨raw, h⟩ => h ▸ RandRange.contains_draw r raw⟩

/-! ### Operands -/

theorem keyOperand_ok {v : Byte} (h : v.toNat < 16) : keyOperand v = .ok ⟨v.toNat, h⟩ := by
  simp [keyOperand, h]

theorem keyOperand_error {v : Byte} (h : ¬ v.toNat < 16) : keyOperand v = .error (.keyIndexOutOfRange v) := by
  simp [keyOperand, h]

theorem glyphOperand_ok {v : Byte} (h : v.toNat ≤ 15) : glyphOperand v = .ok (zext16 v * 5) := by
  simp [glyphOperand, h]

theorem glyphOperand_error {v : Byte} (h : ¬ v.toNat ≤ 15) : glyphOperand v = .error (.invalidSpriteIndex v) := by
  simp [glyphOperand, h]

/-- The lowest pressed key: it is pressed and none below it is (45_keys_timers.md R173). -/
theorem lowestKey_eq_some_iff {keys : KeyLatch} {k : Nat} :
    lowestKey keys = some k ↔ ∃ h : k < 16, keys[k] = true ∧ ∀ j (hj : j < k), keys[j] = false := by
  unfold lowestKey
  rw [List.findIdx?_eq_some_iff_getElem]
  simp

/-- No key is pressed. -/
theorem lowestKey_eq_none_iff {keys : KeyLatch} :
    lowestKey keys = none ↔ ∀ k (h : k < 16), keys[k] = false := by
  unfold lowestKey
  rw [List.findIdx?_eq_none_iff]
  constructor
  · intro h k hk
    have := h keys[k] (by simp)
    simpa using this
  · intro h b hb
    obtain ⟨k, hk, rfl⟩ := List.getElem_of_mem hb
    simp only [Vector.length_toList] at hk
    simpa using h k hk

/-! ### Flags -/

/-- The flag is the last write: VF holds it whatever x is (42_alu.md R122). -/
@[simp] theorem writeResultThenFlag_vf (s : State) (x : Reg) (res flag : Byte) :
    (writeResultThenFlag s x res flag).getV vf = flag := by
  simp [writeResultThenFlag]

/-- With x other than F the result is in Vx (42_alu.md R122). -/
theorem writeResultThenFlag_x (s : State) {x : Reg} (res flag : Byte) (h : x ≠ vf) :
    (writeResultThenFlag s x res flag).getV x = res := by
  rw [writeResultThenFlag, State.getV_setV_other _ _ h, State.getV_setV_same]

/-- No other register changes. -/
theorem writeResultThenFlag_other (s : State) {x r : Reg} (res flag : Byte) (h : r ≠ x) (h' : r ≠ vf) :
    (writeResultThenFlag s x res flag).getV r = s.getV r := by
  rw [writeResultThenFlag, State.getV_setV_other _ _ h', State.getV_setV_other _ _ h]

end Sys2Proof.Machine
end

