-- ==== Sys2Proof/Laws/PerInstr.lean ====
section
/-! SUPPORT. The family of statements made per instruction: the encoder's word lies in the instruction's row of the
opcode map (30_encoding.md R90). -/

namespace Sys2Proof.Laws

/-- The word the encoder gives an instruction has the row's fixed bits: under the row's mask it is the row's value. -/
def TableRow.Statement (i : Instr) : Prop := encode i &&& i.row.mask = i.row.value

theorem TableRow.cls : TableRow.Statement .cls := rfl

theorem TableRow.ret : TableRow.Statement .ret := rfl

theorem TableRow.jp (nnn : Addr12) : TableRow.Statement (.jp nnn) := formatNNN_mask _ _

theorem TableRow.call (nnn : Addr12) : TableRow.Statement (.call nnn) := formatNNN_mask _ _

theorem TableRow.ldI (nnn : Addr12) : TableRow.Statement (.ldI nnn) := formatNNN_mask _ _

theorem TableRow.jpV0 (nnn : Addr12) : TableRow.Statement (.jpV0 nnn) := formatNNN_mask _ _

theorem TableRow.seImm (x : Reg) (nn : Byte) : TableRow.Statement (.seImm x nn) := formatXNN_mask_group _ _ _

theorem TableRow.sneImm (x : Reg) (nn : Byte) : TableRow.Statement (.sneImm x nn) := formatXNN_mask_group _ _ _

theorem TableRow.ldImm (x : Reg) (nn : Byte) : TableRow.Statement (.ldImm x nn) := formatXNN_mask_group _ _ _

theorem TableRow.addImm (x : Reg) (nn : Byte) : TableRow.Statement (.addImm x nn) := formatXNN_mask_group _ _ _

theorem TableRow.rnd (x : Reg) (nn : Byte) : TableRow.Statement (.rnd x nn) := formatXNN_mask_group _ _ _

theorem TableRow.seReg (x y : Reg) : TableRow.Statement (.seReg x y) := formatXYN_mask_function _ _ _ _

theorem TableRow.ldReg (x y : Reg) : TableRow.Statement (.ldReg x y) := formatXYN_mask_function _ _ _ _

theorem TableRow.orReg (x y : Reg) : TableRow.Statement (.orReg x y) := formatXYN_mask_function _ _ _ _

theorem TableRow.andReg (x y : Reg) : TableRow.Statement (.andReg x y) := formatXYN_mask_function _ _ _ _

theorem TableRow.xorReg (x y : Reg) : TableRow.Statement (.xorReg x y) := formatXYN_mask_function _ _ _ _

theorem TableRow.addReg (x y : Reg) : TableRow.Statement (.addReg x y) := formatXYN_mask_function _ _ _ _

theorem TableRow.sub (x y : Reg) : TableRow.Statement (.sub x y) := formatXYN_mask_function _ _ _ _

theorem TableRow.shr (x y : Reg) : TableRow.Statement (.shr x y) := formatXYN_mask_function _ _ _ _

theorem TableRow.subn (x y : Reg) : TableRow.Statement (.subn x y) := formatXYN_mask_function _ _ _ _

theorem TableRow.shl (x y : Reg) : TableRow.Statement (.shl x y) := formatXYN_mask_function _ _ _ _

theorem TableRow.sneReg (x y : Reg) : TableRow.Statement (.sneReg x y) := formatXYN_mask_function _ _ _ _

theorem TableRow.drw (x y : Reg) (n : Nat) : TableRow.Statement (.drw x y n) := formatXYN_mask_group _ _ _ _

theorem TableRow.skp (x : Reg) : TableRow.Statement (.skp x) := formatXNN_mask_function _ _ _

theorem TableRow.sknp (x : Reg) : TableRow.Statement (.sknp x) := formatXNN_mask_function _ _ _

theorem TableRow.ldVxDt (x : Reg) : TableRow.Statement (.ldVxDt x) := formatXNN_mask_function _ _ _

theorem TableRow.ldVxK (x : Reg) : TableRow.Statement (.ldVxK x) := formatXNN_mask_function _ _ _

theorem TableRow.ldDtVx (x : Reg) : TableRow.Statement (.ldDtVx x) := formatXNN_mask_function _ _ _

theorem TableRow.ldStVx (x : Reg) : TableRow.Statement (.ldStVx x) := formatXNN_mask_function _ _ _

theorem TableRow.addI (x : Reg) : TableRow.Statement (.addI x) := formatXNN_mask_function _ _ _

theorem TableRow.ldF (x : Reg) : TableRow.Statement (.ldF x) := formatXNN_mask_function _ _ _

theorem TableRow.ldB (x : Reg) : TableRow.Statement (.ldB x) := formatXNN_mask_function _ _ _

theorem TableRow.ldStore (x : Reg) : TableRow.Statement (.ldStore x) := formatXNN_mask_function _ _ _

theorem TableRow.ldLoad (x : Reg) : TableRow.Statement (.ldLoad x) := formatXNN_mask_function _ _ _

end Sys2Proof.Laws
end

