-- ==== Sys2Proof/Laws/Sprite.lean ====
section
/-! SUPPORT. The sprite engine as a set of pixels: a pixel under a 1 bit is flipped, every other is kept, and the
collision is that some flipped pixel was set (44_display.md R162). -/

namespace Sys2Proof.Machine

/-- Flipping one pixel flips it and no other. -/
theorem Framebuffer.pixel_flipPixel (fb : Framebuffer) (y y' : Fin 32) (x x' : Fin 64) :
    Framebuffer.pixel (Framebuffer.flipPixel fb y x) y' x' =
      if y' = y ∧ x' = x then !Framebuffer.pixel fb y x else Framebuffer.pixel fb y' x' := by
  unfold Framebuffer.pixel Framebuffer.flipPixel
  by_cases hy : y' = y
  · subst hy
    rw [Vector.getElem_set_self, BitVec.getLsbD_xor, BitVec.getLsbD_twoPow]
    by_cases hx : x' = x
    · subst hx; simp
    · have : ¬ x.val = x'.val := fun e => hx (Fin.ext e.symm)
      simp [hx, this]
  · have : y.val ≠ y'.val := fun e => hy (Fin.ext e.symm)
    rw [Vector.getElem_set_ne _ _ this]
    simp [hy]

/-- A clear framebuffer has no pixel set. -/
@[simp] theorem Framebuffer.pixel_clear (y : Fin 32) (x : Fin 64) :
    Framebuffer.pixel Framebuffer.clear y x = false := by
  simp [Framebuffer.pixel, Framebuffer.clear]

/-- Two columns of a sprite never wrap to the same column. -/
theorem wrapX_inj {ox c c' : Nat} (hc : c < 8) (hc' : c' < 8) (h : wrapX (ox + c) = wrapX (ox + c')) : c = c' := by
  have : (ox + c) % 64 = (ox + c') % 64 := congrArg Fin.val h
  omega

/-- Two rows of a sprite of at most 32 rows never wrap to the same row. -/
theorem wrapY_inj {oy r r' : Nat} (hr : r < 32) (hr' : r' < 32) (h : wrapY (oy + r) = wrapY (oy + r')) : r = r' := by
  have : (oy + r) % 32 = (oy + r') % 32 := congrArg Fin.val h
  omega

/-- One sprite row over distinct columns: what it does to each pixel and to the collision. -/
theorem drawColumns_spec (row : Byte) (ox : Nat) (y : Fin 32) (cs : List Nat) :
    (∀ c ∈ cs, c < 8) → cs.Nodup → ∀ d : Drawing,
    (∀ y' x', ((y' = y ∧ ∃ c ∈ cs, spriteBit row c = true ∧ wrapX (ox + c) = x') →
        Framebuffer.pixel (drawColumns row ox y cs d).fb y' x' = !Framebuffer.pixel d.fb y' x') ∧
      (¬ (y' = y ∧ ∃ c ∈ cs, spriteBit row c = true ∧ wrapX (ox + c) = x') →
        Framebuffer.pixel (drawColumns row ox y cs d).fb y' x' = Framebuffer.pixel d.fb y' x')) ∧
    ((drawColumns row ox y cs d).hit = true ↔ d.hit = true ∨
      ∃ c ∈ cs, spriteBit row c = true ∧ Framebuffer.pixel d.fb y (wrapX (ox + c)) = true) := by
  induction cs with
  | nil => intro _ _ d; simp [drawColumns]
  | cons c cs ih =>
    intro hlt hnd d
    have hc : c < 8 := hlt c (by simp)
    have hcs : ∀ e ∈ cs, e < 8 := fun e he => hlt e (by simp [he])
    obtain ⟨hnot, hnd'⟩ := List.nodup_cons.1 hnd
    have hdist : ∀ e ∈ cs, wrapX (ox + e) ≠ wrapX (ox + c) := fun e he heq =>
      hnot (wrapX_inj (hcs e he) hc heq ▸ he)
    rw [drawColumns]
    by_cases hb : spriteBit row c = true
    · rw [if_pos hb]
      obtain ⟨hpix, hhit⟩ := ih hcs hnd' (d.toggle y (wrapX (ox + c)))
      have htog : ∀ y' x', Framebuffer.pixel (d.toggle y (wrapX (ox + c))).fb y' x' =
          if y' = y ∧ x' = wrapX (ox + c) then !Framebuffer.pixel d.fb y (wrapX (ox + c))
          else Framebuffer.pixel d.fb y' x' := fun y' x' => Framebuffer.pixel_flipPixel _ _ _ _ _
      refine ⟨fun y' x' => ⟨?_, ?_⟩, ?_⟩
      · rintro ⟨rfl, e, he, hbe, rfl⟩
        rcases List.mem_cons.1 he with rfl | he
        · rw [(hpix y' _).2 (by rintro ⟨-, f, hf, -, hfe⟩; exact hdist f hf hfe), htog, if_pos ⟨rfl, rfl⟩]
        · rw [(hpix y' _).1 ⟨rfl, e, he, hbe, rfl⟩, htog, if_neg (fun h => hdist e he h.2)]
      · intro hno
        rw [(hpix y' x').2 (fun ⟨hy, f, hf, hbf, hfx⟩ => hno ⟨hy, f, by simp [hf], hbf, hfx⟩), htog,
          if_neg (fun h => hno ⟨h.1, c, by simp, hb, h.2.symm⟩)]
      · rw [hhit]
        have : ∀ e ∈ cs, Framebuffer.pixel (d.toggle y (wrapX (ox + c))).fb y (wrapX (ox + e)) =
            Framebuffer.pixel d.fb y (wrapX (ox + e)) := fun e he => by
          rw [htog, if_neg (fun h => hdist e he h.2)]
        simp only [Drawing.toggle, Bool.or_eq_true, List.mem_cons, exists_eq_or_imp, hb, true_and, or_assoc]
        refine or_congr_right (or_congr_right (exists_congr fun e => and_congr_right fun he => ?_))
        exact and_congr_right fun _ => by rw [← this e he]; rfl
    · rw [if_neg hb]
      obtain ⟨hpix, hhit⟩ := ih hcs hnd' d
      refine ⟨fun y' x' => ⟨?_, ?_⟩, ?_⟩
      · rintro ⟨hy, e, he, hbe, hex⟩
        rcases List.mem_cons.1 he with rfl | he
        · exact absurd hbe hb
        · exact (hpix y' x').1 ⟨hy, e, he, hbe, hex⟩
      · intro hno
        exact (hpix y' x').2 fun ⟨hy, f, hf, hbf, hfx⟩ => hno ⟨hy, f, by simp [hf], hbf, hfx⟩
      · rw [hhit]; simp [hb]

/-- The eight columns of a sprite are distinct and below 8. -/
theorem spriteColumns_spec : (∀ c ∈ spriteColumns, c < 8) ∧ spriteColumns.Nodup ∧ ∀ c < 8, c ∈ spriteColumns := by
  decide

/-- The sprite rows from `oy` down cover a pixel. -/
def rowsCover (ox oy : Nat) (rows : List Byte) (y : Fin 32) (x : Fin 64) : Prop :=
  ∃ r c, ∃ h : r < rows.length, c < 8 ∧ wrapY (oy + r) = y ∧ spriteBit rows[r] c = true ∧ wrapX (ox + c) = x

/-- A whole sprite of at most 32 rows: what it does to each pixel and to the collision. -/
theorem drawRows_spec (ox : Nat) (rows : List Byte) : ∀ oy, rows.length ≤ 32 → ∀ d : Drawing,
    (∀ y x, (rowsCover ox oy rows y x →
        Framebuffer.pixel (drawRows ox oy rows d).fb y x = !Framebuffer.pixel d.fb y x) ∧
      (¬ rowsCover ox oy rows y x →
        Framebuffer.pixel (drawRows ox oy rows d).fb y x = Framebuffer.pixel d.fb y x)) ∧
    ((drawRows ox oy rows d).hit = true ↔ d.hit = true ∨
      ∃ y x, rowsCover ox oy rows y x ∧ Framebuffer.pixel d.fb y x = true) := by
  induction rows with
  | nil => intro oy _ d; simp [drawRows, rowsCover]
  | cons row rows ih =>
    intro oy hlen d
    simp only [List.length_cons] at hlen
    obtain ⟨hcol, hcolhit⟩ := drawColumns_spec row ox (wrapY oy) spriteColumns spriteColumns_spec.1
      spriteColumns_spec.2.1 d
    obtain ⟨hrow, hrowhit⟩ := ih (oy + 1) (by omega) (drawColumns row ox (wrapY oy) spriteColumns d)
    -- the pixels of the first row
    have first : ∀ y x, (y = wrapY oy ∧ ∃ c ∈ spriteColumns, spriteBit row c = true ∧ wrapX (ox + c) = x) →
        rowsCover ox oy (row :: rows) y x := by
      rintro y x ⟨rfl, c, hc, hb, hx⟩
      exact ⟨0, c, by simp, spriteColumns_spec.1 c hc, rfl, hb, hx⟩
    have later : ∀ y x, rowsCover ox (oy + 1) rows y x → rowsCover ox oy (row :: rows) y x := by
      rintro y x ⟨r, c, hr, hc, hy, hb, hx⟩
      exact ⟨r + 1, c, by simpa using hr, hc, by rw [show oy + (r + 1) = oy + 1 + r by omega]; exact hy,
        by simpa using hb, hx⟩
    have split : ∀ y x, rowsCover ox oy (row :: rows) y x →
        (y = wrapY oy ∧ ∃ c ∈ spriteColumns, spriteBit row c = true ∧ wrapX (ox + c) = x) ∨
        rowsCover ox (oy + 1) rows y x := by
      rintro y x ⟨r, c, hr, hc, hy, hb, hx⟩
      cases r with
      | zero => exact .inl ⟨by simpa using hy.symm, c, spriteColumns_spec.2.2 c hc, by simpa using hb, hx⟩
      | succ r =>
        exact .inr ⟨r, c, by simpa using hr, hc, by rw [show oy + 1 + r = oy + (r + 1) by omega]; exact hy,
          by simpa using hb, hx⟩
    have apart : ∀ y x, rowsCover ox (oy + 1) rows y x → y ≠ wrapY oy := by
      rintro y x ⟨r, c, hr, hc, hy, hb, hx⟩ heq
      have := wrapY_inj (oy := oy) (r := 1 + r) (r' := 0) (by omega) (by omega)
        (by rw [← Nat.add_assoc, hy, heq, Nat.add_zero])
      omega
    rw [drawRows]
    refine ⟨fun y x => ⟨fun hcov => ?_, fun hno => ?_⟩, ?_⟩
    · rcases split y x hcov with hf | hl
      · rw [(hrow y x).2 (fun h => apart y x h hf.1), (hcol y x).1 hf]
      · rw [(hrow y x).1 hl, (hcol y x).2 (fun hf => apart y x hl hf.1)]
    · rw [(hrow y x).2 (fun h => hno (later y x h)), (hcol y x).2 (fun h => hno (first y x h))]
    · rw [hrowhit, hcolhit, or_assoc]
      refine or_congr_right ⟨?_, ?_⟩
      · rintro (⟨c, hc, hb, hp⟩ | ⟨y, x, hcov, hp⟩)
        · exact ⟨_, _, first _ _ ⟨rfl, c, hc, hb, rfl⟩, hp⟩
        · rw [(hcol y x).2 (fun hf => apart y x hcov hf.1)] at hp
          exact ⟨y, x, later y x hcov, hp⟩
      · rintro ⟨y, x, hcov, hp⟩
        rcases split y x hcov with ⟨rfl, c, hc, hb, rfl⟩ | hl
        · exact .inl ⟨c, hc, hb, hp⟩
        · exact .inr ⟨y, x, hl, by rw [(hcol y x).2 (fun hf => apart y x hl hf.1)]; exact hp⟩

/-- Drawing a sprite of at most 32 rows (44_display.md R162). -/
theorem drawSprite_spec (fb : Framebuffer) (ox oy : Nat) (rows : List Byte) (h : rows.length ≤ 32) :
    (∀ y x, (rowsCover ox oy rows y x →
        Framebuffer.pixel (drawSprite fb ox oy rows).fb y x = !Framebuffer.pixel fb y x) ∧
      (¬ rowsCover ox oy rows y x →
        Framebuffer.pixel (drawSprite fb ox oy rows).fb y x = Framebuffer.pixel fb y x)) ∧
    ((drawSprite fb ox oy rows).hit = true ↔
      ∃ y x, rowsCover ox oy rows y x ∧ Framebuffer.pixel fb y x = true) := by
  have := drawRows_spec ox rows oy h { fb := fb, hit := false }
  simpa [drawSprite] using this

end Sys2Proof.Machine
end

