-- ==== Sys2Proof/Laws/Step.lean ====
section
/-! SUPPORT. The step cycle, inverted once: what a step that answers next has done (30_encoding.md R92). -/

namespace Sys2Proof.Machine

/-- The fetch of a word: two bytes at `pc`, high byte first, where both are in range (20_memory.md R64). -/
theorem fetchWord_eq (s : State) :
    fetchWord s = if inRange s.pc 2 then .ok (wordOfBytes (s.mem.read s.pc.toNat) (s.mem.read (s.pc.toNat + 1)))
      else .error (.memoryOutOfRange (lowestOutOfRange s.pc)) := by
  unfold fetchWord checkRange
  cases inRange s.pc 2 <;> rfl

/-- An instruction is fetched exactly when the range fits and the word there decodes. -/
theorem fetchInstr_ok_iff {s : State} {i : Instr} :
    fetchInstr s = .ok i ↔ s.pc.toNat + 2 ≤ 0x1000 ∧
      decode (wordOfBytes (s.mem.read s.pc.toNat) (s.mem.read (s.pc.toNat + 1))) = .ok i := by
  rw [fetchInstr, fetchWord_eq]
  cases hr : inRange s.pc 2 with
  | false =>
    have : ¬ s.pc.toNat + 2 ≤ 0x1000 := fun h => by
      rw [inRange_iff.2 (.inr h)] at hr; cases hr
    simp [this]
  | true =>
    have : s.pc.toNat + 2 ≤ 0x1000 := by
      rcases inRange_iff.1 hr with h | h
      · cases h
      · exact h
    simp only [if_true, this, true_and]
    split
    · next h => simp [h]
    · next h => simp [h]

/-- A step answers next exactly when it fetches an instruction, the instruction answers next from the state in which
the report is cleared, and the timers tick. -/
theorem step_next_iff {s t : State} :
    step s = .next t ↔ ∃ i u, fetchInstr s = .ok i ∧ exec i (beginStep s) = .next u ∧ t = endStep u := by
  unfold step
  cases fetchInstr s with
  | error e => simp [raise]
  | ok i =>
    simp only [Except.ok.injEq]
    cases h : exec i (beginStep s) with
    | next u =>
      constructor
      · intro ht; cases ht; exact ⟨i, u, rfl, h, rfl⟩
      · rintro ⟨j, u', rfl, hu, rfl⟩
        rw [h] at hu; cases hu; rfl
    | fault e =>
      simp only [raise, reduceCtorEq, false_iff, not_exists]
      rintro j u ⟨rfl, hu, -⟩
      rw [h] at hu; cases hu
    | refused r =>
      simp only [reduceCtorEq, false_iff, not_exists]
      rintro j u ⟨rfl, hu, -⟩
      rw [h] at hu; cases hu

/-- A step faults exactly when the fetch or decode fails, or the instruction faults. -/
theorem step_fault_iff {s : State} {e : Fault} :
    step s = .fault e ↔ fetchInstr s = .error e ∨ ∃ i, fetchInstr s = .ok i ∧ exec i (beginStep s) = .fault e := by
  unfold step
  cases fetchInstr s with
  | error e' => simp [raise]
  | ok i =>
    simp only [Except.ok.injEq, reduceCtorEq, false_or]
    cases h : exec i (beginStep s) with
    | next u => simp [h]
    | fault e' => simp [raise, h]
    | refused r => simp [h]

/-- The chosen inputs have no part in the fetch. -/
@[simp] theorem fetchInstr_withInput (s : State) (keys : KeyLatch) (raw : Byte) :
    fetchInstr (s.withInput keys raw) = fetchInstr s := rfl

/-- A step of the host completes exactly when the instruction fetched answers next from the state that holds the
supplied inputs; the report it gives is the one the state after it holds (10_state.md R53). -/
theorem hostStep_next_iff {keys : KeyLatch} {raw : Byte} {s t : State} {rep : StepReport} :
    hostStep keys raw s = (t, .next rep) ↔
      ∃ i u, fetchInstr s = .ok i ∧ exec i (beginStep (s.withInput keys raw)) = .next u ∧ t = endStep u ∧
        rep = t.report := by
  unfold hostStep
  cases h : step (s.withInput keys raw) with
  | next t' =>
    obtain ⟨i, u, hf, he, rfl⟩ := step_next_iff.1 h
    constructor
    · intro ht; cases ht; exact ⟨i, u, hf, he, rfl, rfl⟩
    · rintro ⟨j, u', hj, hu, rfl, rfl⟩
      rw [fetchInstr_withInput, hj] at hf; cases hf
      rw [he] at hu; cases hu; rfl
  | fault e =>
    simp only [Prod.mk.injEq, reduceCtorEq, and_false, false_iff, not_exists]
    rintro i u ⟨hf, he, -⟩
    have := (@step_next_iff (s.withInput keys raw) _).2 ⟨i, u, hf, he, rfl⟩
    rw [h] at this; cases this
  | refused r =>
    simp only [Prod.mk.injEq, reduceCtorEq, and_false, false_iff, not_exists]
    rintro i u ⟨hf, he, -⟩
    have := (@step_next_iff (s.withInput keys raw) _).2 ⟨i, u, hf, he, rfl⟩
    rw [h] at this; cases this

/-- A word placed where the next step fetches is the word it fetches. -/
theorem fetchWord_placeWord {s : State} (w : Word) (h : s.pc.toNat + 2 ≤ 0x1000) :
    fetchWord (placeWord s w) = .ok w := by
  have hr : inRange s.pc 2 = true := inRange_iff.2 (.inr h)
  have hp : placeWord s w = { s with mem := s.mem.writeBytes s.pc.toNat [highByte w, lowByte w] } := by
    simp [placeWord, hr]
  have h0 := Memory.read_writeBytes_inside [highByte w, lowByte w] s.mem s.pc.toNat 0 (by simp)
  have h1 := Memory.read_writeBytes_inside [highByte w, lowByte w] s.mem s.pc.toNat 1 (by simp)
  rw [fetchWord_eq, hp]
  simp only [hr, if_true]
  rw [Nat.add_zero] at h0
  rw [h0, h1]
  simp

end Sys2Proof.Machine
end

