-- ==== Sys2Proof/Tests/Slice0.lean ====
section
/-! SUPPORT. Tests: the WellFormed smoke, words written out from the rows of 30_encoding.md, one-step vectors of
95_test_vectors.md (the vector of each test is named in its comment), and a witness for every obligation that has
hypotheses. -/

open Sys2Proof Sys2Proof.Machine

namespace Sys2Proof.Tests

/-! ### Helpers -/

/-- Reset with the given keys pressed and the given raw draw for the next step. -/
def given (keys : List (Fin 16)) (draw : Byte) : State :=
  { State.reset with inputs := [⟨Vector.ofFn fun k => decide (k ∈ keys), draw⟩] }

/-- Reset with no key pressed. -/
def idle : State := given [] 0

/-- Set some bytes of memory. -/
def poke (s : State) (a : Nat) (bs : List Byte) : State := { s with mem := s.mem.writeBytes a bs }

/-- Set one pixel. -/
def dot (s : State) (y : Fin 32) (x : Fin 64) : State := { s with fb := Framebuffer.flipPixel State.reset.fb y x }

/-- Set every pixel. -/
def white (s : State) : State := { s with fb := Vector.replicate 32 (BitVec.allOnes 64) }

/-- What `g` reads after one step with the word `w` at `pc`. -/
def after {α : Type} (s : State) (w : Nat) (g : State → α) : Option α :=
  (nextOf (step (s.withFetchWord 16 w))).map g

/-- The error of one step with the word `w` at `pc`. -/
def err (s : State) (w : Nat) : Option Fault := faultOf (step (s.withFetchWord 16 w))

/-- An outcome with a next state is a next state. -/
theorem next_of_isSome {σ φ ρ : Type} {o : Host.Outcome σ φ ρ} (h : (nextOf o).isSome = true) : ∃ t, o = .next t := by
  cases o <;> simp [nextOf] at h ⊢

/-- An outcome whose fault is `e` is that fault. -/
theorem fault_of_eq {σ φ ρ : Type} {o : Host.Outcome σ φ ρ} {e : φ} (h : faultOf o = some e) : o = .fault e := by
  cases o <;> simp_all [faultOf]

/-! ### WellFormed -/

/-- The one check, the row count of Dxyn, refuses a count that four bits cannot hold and allows the greatest. -/
theorem test_wellFormed_row_count : WellFormed (.drw 0 0 16) = false ∧ WellFormed (.drw 0 0 15) = true := by decide

/-! ### Decoding: words written out bit by bit from 30_encoding.md R81 and R90 -/

theorem test_decode_control :
    decode 0b0000_0000_1110_1110#16 = .ok .ret ∧
    decode 0b0001_1010_1011_1100#16 = .ok (.jp 0xABC#12) ∧
    decode 0b0010_0010_0001_0000#16 = .ok (.call 0x210#12) ∧
    decode 0b0011_0011_0100_0010#16 = .ok (.seImm 3 0x42#8) ∧
    decode 0b0100_0011_0100_0010#16 = .ok (.sneImm 3 0x42#8) ∧
    decode 0b0101_0001_0010_0000#16 = .ok (.seReg 1 2) ∧
    decode 0b1001_0001_0010_0000#16 = .ok (.sneReg 1 2) ∧
    decode 0b1011_0011_0000_0000#16 = .ok (.jpV0 0x300#12) := by decide

theorem test_decode_alu :
    decode 0b0110_1010_0101_1100#16 = .ok (.ldImm 10 0x5C#8) ∧
    decode 0b0111_0010_0000_0010#16 = .ok (.addImm 2 0x02#8) ∧
    decode 0b1000_0001_0010_0000#16 = .ok (.ldReg 1 2) ∧
    decode 0b1000_0001_0010_0001#16 = .ok (.orReg 1 2) ∧
    decode 0b1000_0001_0010_0010#16 = .ok (.andReg 1 2) ∧
    decode 0b1000_0001_0010_0011#16 = .ok (.xorReg 1 2) ∧
    decode 0b1000_0001_0010_0100#16 = .ok (.addReg 1 2) ∧
    decode 0b1000_0001_0010_0101#16 = .ok (.sub 1 2) ∧
    decode 0b1000_0001_0010_0110#16 = .ok (.shr 1 2) ∧
    decode 0b1000_0001_0010_0111#16 = .ok (.subn 1 2) ∧
    decode 0b1000_0001_0010_1110#16 = .ok (.shl 1 2) ∧
    decode 0b1100_0100_0000_1111#16 = .ok (.rnd 4 0x0F#8) := by decide

theorem test_decode_memory_and_display :
    decode 0b0000_0000_1110_0000#16 = .ok .cls ∧
    decode 0b1101_0001_0010_0101#16 = .ok (.drw 1 2 5) ∧
    decode 0b1010_0011_0000_0000#16 = .ok (.ldI 0x300#12) ∧
    decode 0b1111_0010_0001_1110#16 = .ok (.addI 2) ∧
    decode 0b1111_0010_0010_1001#16 = .ok (.ldF 2) ∧
    decode 0b1111_0101_0011_0011#16 = .ok (.ldB 5) ∧
    decode 0b1111_0010_0101_0101#16 = .ok (.ldStore 2) ∧
    decode 0b1111_0010_0110_0101#16 = .ok (.ldLoad 2) := by decide

theorem test_decode_keys_and_timers :
    decode 0b1110_0000_1001_1110#16 = .ok (.skp 0) ∧
    decode 0b1110_0000_1010_0001#16 = .ok (.sknp 0) ∧
    decode 0b1111_0100_0000_0111#16 = .ok (.ldVxDt 4) ∧
    decode 0b1111_0011_0000_1010#16 = .ok (.ldVxK 3) ∧
    decode 0b1111_0011_0001_0101#16 = .ok (.ldDtVx 3) ∧
    decode 0b1111_0011_0001_1000#16 = .ok (.ldStVx 3) := by decide

/-- Vectors V7 to V15: words of no row. -/
theorem test_decode_rejects :
    decode 0x0000#16 = .error ⟨0x0000⟩ ∧
    decode 0x0123#16 = .error ⟨0x0123⟩ ∧
    decode 0x01E0#16 = .error ⟨0x01E0⟩ ∧
    decode 0x0FEE#16 = .error ⟨0x0FEE⟩ ∧
    decode 0x5121#16 = .error ⟨0x5121⟩ ∧
    decode 0x900F#16 = .error ⟨0x900F⟩ ∧
    decode 0x8008#16 = .error ⟨0x8008⟩ ∧
    decode 0x8009#16 = .error ⟨0x8009⟩ ∧
    decode 0x800A#16 = .error ⟨0x800A⟩ ∧
    decode 0x800B#16 = .error ⟨0x800B⟩ ∧
    decode 0x800C#16 = .error ⟨0x800C⟩ ∧
    decode 0x800D#16 = .error ⟨0x800D⟩ ∧
    decode 0x800F#16 = .error ⟨0x800F⟩ ∧
    decode 0xE000#16 = .error ⟨0xE000⟩ ∧
    decode 0xE09F#16 = .error ⟨0xE09F⟩ ∧
    decode 0xE0A2#16 = .error ⟨0xE0A2⟩ ∧
    decode 0xF000#16 = .error ⟨0xF000⟩ ∧
    decode 0xF001#16 = .error ⟨0xF001⟩ ∧
    decode 0xF066#16 = .error ⟨0xF066⟩ ∧
    decode 0xF0FF#16 = .error ⟨0xF0FF⟩ := by decide

/-! ### One-step vectors of 95_test_vectors.md -/

/-- V2 and V3: an odd pc, and the last word of memory. -/
theorem test_fetch :
    after (idle.setPc 0x201) 0x6A07 (fun t => (t.getV 10, t.pc)) = some (0x07, 0x203) ∧
    after (idle.setPc 0xFFE) 0x6A07 (fun t => (t.getV 10, t.pc)) = some (0x07, 0x1000) := by decide

/-- V4 to V6. -/
theorem test_fetch_out_of_range :
    faultOf (step (idle.setPc 0xFFF)) = some (.memoryOutOfRange 0x1000) ∧
    faultOf (step (idle.setPc 0x1000)) = some (.memoryOutOfRange 0x1000) ∧
    faultOf (step (idle.setPc 0x10FE)) = some (.memoryOutOfRange 0x10FE) := by decide

/-- V17, and V16 through `hostStep`. -/
theorem test_error_and_skip :
    (hostStep (Vector.replicate 16 false) 0 { idle with dt := 5, st := 5 }).1 = { idle with dt := 5, st := 5 } ∧
    faultOf (hostStep (Vector.replicate 16 false) 0 { idle with dt := 5, st := 5 }).2 =
      some (.unknownOpcode 0x0000) ∧
    (skipWord idle).pc = 0x202 := by decide

/-- V20 and V21, whose timers are those of V181. -/
theorem test_jp :
    after idle 0x1ABC (fun t => t.pc) = some 0xABC ∧
    after { idle with dt := 255, st := 255 } 0x1200 (fun t => (t.pc, t.dt, t.st)) = some (0x200, 254, 254) := by decide

/-- V22 and V23. -/
theorem test_call :
    after (idle.setPc 0x204) 0x2210 (fun t => (t.stack[0], t.sp, t.pc)) = some (0x206, 1, 0x210) ∧
    after { idle with pc := 0x300, sp := 15 } 0x2400 (fun t => (t.stack[15], t.sp, t.pc)) =
      some (0x302, 16, 0x400) := by decide

/-- V24 and V27. -/
theorem test_call_edges :
    err { idle with pc := 0x300, sp := 16 } 0x2400 = some .stackOverflow ∧
    after (idle.setPc 0xFFE) 0x2FFE (fun t => (t.stack[0], t.sp, t.pc)) = some (0x1000, 1, 0xFFE) := by decide

/-- V25 and V26. -/
theorem test_ret :
    after { idle with pc := 0x212, sp := 1, stack := idle.stack.set 0 0x206 } 0x00EE
      (fun t => (t.pc, t.sp, t.stack[0])) = some (0x206, 0, 0x206) ∧
    err (idle.setPc 0x212) 0x00EE = some .stackUnderflow := by decide

/-- V28, V29 and V30. -/
theorem test_jpV0 :
    after (idle.setV 0 0x10) 0xB300 (fun t => t.pc) = some 0x310 ∧
    after (idle.setV 0 0xFF) 0xBFFF (fun t => t.pc) = some 0x10FE ∧
    after (idle.setV 5 0x77) 0xB500 (fun t => t.pc) = some 0x500 := by decide

/-- V31 to V34, and V41. -/
theorem test_immediate_skips :
    after (idle.setV 3 0x42) 0x3342 (fun t => t.pc) = some 0x204 ∧
    after (idle.setV 3 0x41) 0x3342 (fun t => t.pc) = some 0x202 ∧
    after (idle.setV 3 0x41) 0x4342 (fun t => t.pc) = some 0x204 ∧
    after (idle.setV 3 0x42) 0x4342 (fun t => t.pc) = some 0x202 ∧
    after (idle.setPc 0xFFE) 0x3000 (fun t => t.pc) = some 0x1002 := by decide

/-- V35 to V39. -/
theorem test_register_skips :
    after ((idle.setV 1 7).setV 2 7) 0x5120 (fun t => t.pc) = some 0x204 ∧
    after ((idle.setV 1 7).setV 2 8) 0x5120 (fun t => t.pc) = some 0x202 ∧
    after idle 0x5110 (fun t => t.pc) = some 0x204 ∧
    after ((idle.setV 1 1).setV 2 2) 0x9120 (fun t => t.pc) = some 0x204 ∧
    after idle 0x9110 (fun t => t.pc) = some 0x202 := by decide

/-- V51, V52 and V53. -/
theorem test_immediates :
    after (idle.setV 15 1) 0x6F00 (fun t => t.getV 15) = some 0 ∧
    after (idle.setV 2 0xFF) 0x7202 (fun t => (t.getV 2, t.getV 15)) = some (1, 0) ∧
    after (idle.setV 15 0xFF) 0x7F01 (fun t => t.getV 15) = some 0 := by decide

/-- V54 to V57. -/
theorem test_logic :
    after (idle.setV 1 0x33) 0x8010 (fun t => t.getV 0) = some 0x33 ∧
    after (((idle.setV 0 0xF0).setV 1 0x0F).setV 15 7) 0x8011 (fun t => (t.getV 0, t.getV 15)) = some (0xFF, 7) ∧
    after ((idle.setV 0 0xF0).setV 1 0x3C) 0x8012 (fun t => t.getV 0) = some 0x30 ∧
    after ((idle.setV 0 0xFF).setV 1 0x0F) 0x8013 (fun t => t.getV 0) = some 0xF0 := by decide

/-- V59, V63, V64 and V65. -/
theorem test_addReg :
    after ((idle.setV 1 0xFF).setV 2 1) 0x8124 (fun t => (t.getV 1, t.getV 15)) = some (0, 1) ∧
    after ((idle.setV 15 0xFF).setV 1 1) 0x8F14 (fun t => t.getV 15) = some 1 ∧
    after ((idle.setV 15 2).setV 1 3) 0x8F14 (fun t => t.getV 15) = some 0 ∧
    after ((idle.setV 1 0x10).setV 15 0xF5) 0x81F4 (fun t => (t.getV 1, t.getV 15)) = some (5, 1) := by decide

/-- V66 to V68, and V71. -/
theorem test_sub :
    after ((idle.setV 1 5).setV 2 3) 0x8125 (fun t => (t.getV 1, t.getV 15)) = some (2, 0) ∧
    after ((idle.setV 1 3).setV 2 5) 0x8125 (fun t => (t.getV 1, t.getV 15)) = some (0xFE, 1) ∧
    after ((idle.setV 1 7).setV 2 7) 0x8125 (fun t => (t.getV 1, t.getV 15)) = some (0, 0) ∧
    after ((idle.setV 15 1).setV 1 2) 0x8F15 (fun t => t.getV 15) = some 1 := by decide

/-- V76, V77 and V80. -/
theorem test_subn :
    after ((idle.setV 1 3).setV 2 5) 0x8127 (fun t => (t.getV 1, t.getV 15)) = some (2, 0) ∧
    after ((idle.setV 1 5).setV 2 3) 0x8127 (fun t => (t.getV 1, t.getV 15)) = some (0xFE, 1) ∧
    after ((idle.setV 15 1).setV 1 2) 0x8F17 (fun t => t.getV 15) = some 0 := by decide

/-- V73 and V75. -/
theorem test_shr :
    after ((idle.setV 3 0xFF).setV 4 0) 0x8346 (fun t => (t.getV 3, t.getV 4, t.getV 15)) = some (0x7F, 0, 1) ∧
    after (idle.setV 15 3) 0x8F06 (fun t => t.getV 15) = some 1 := by decide

/-- V81, V83 and V85. -/
theorem test_shl :
    after (idle.setV 3 0x81) 0x830E (fun t => (t.getV 3, t.getV 15)) = some (2, 1) ∧
    after (idle.setV 3 0x7F) 0x830E (fun t => (t.getV 3, t.getV 15)) = some (0xFE, 0) ∧
    after (idle.setV 15 0x81) 0x8F0E (fun t => t.getV 15) = some 1 := by decide

/-- V86 and V87: a draw other than 0 is the same under both ranges. -/
theorem test_rnd :
    after (given [] 0xAB) 0xC40F (fun t => t.getV 4) = some 0x0B ∧
    after (given [] 0x10) 0xC40F (fun t => t.getV 4) = some 0x00 := by decide

/-- V100 to V103. -/
theorem test_index :
    after idle 0xA300 (fun t => t.i) = some 0x300 ∧
    after ((idle.setI 0xFFF).setV 2 1) 0xF21E (fun t => (t.i, t.getV 15)) = some (0x1000, 0) ∧
    after ((idle.setI 0xFFFF).setV 2 2) 0xF21E (fun t => (t.i, t.getV 15)) = some (1, 0) ∧
    after ((idle.setI 0x100).setV 15 5) 0xFF1E (fun t => (t.i, t.getV 15)) = some (0x105, 5) := by decide

/-- V105, V107 and V108. -/
theorem test_ldF :
    after (idle.setV 2 0xF) 0xF229 (fun t => t.i) = some 0x4B ∧
    err (idle.setV 2 0x10) 0xF229 = some (.invalidSpriteIndex 0x10) ∧
    err (idle.setV 2 0xFF) 0xF229 = some (.invalidSpriteIndex 0xFF) := by decide

/-- V109 and V113. -/
theorem test_ldB :
    after ((idle.setI 0x300).setV 5 128) 0xF533 (fun t => (t.mem.readBytes 0x300 4, t.i)) = some ([1, 2, 8, 0], 0x300) ∧
    after ((idle.setI 0xFFD).setV 5 123) 0xF533 (fun t => t.mem.readBytes 0xFFD 3) = some [1, 2, 3] := by decide

/-- V114 and V115. -/
theorem test_ldB_edges :
    err ((idle.setI 0xFFE).setV 5 123) 0xF533 = some (.memoryOutOfRange 0x1000) ∧
    after ((idle.setI 0x10).setV 5 255) 0xF533 (fun t => t.mem.readBytes 0x10 3) = some [2, 5, 5] := by decide

/-- V116, V119, V120 and V121. -/
theorem test_ldStore :
    after ((((idle.setI 0x400).setV 0 1).setV 1 2).setV 2 3) 0xF255 (fun t => (t.mem.readBytes 0x400 4, t.i)) =
      some ([1, 2, 3, 0], 0x400) ∧
    after (((idle.setI 0xFFE).setV 0 1).setV 1 2) 0xF155 (fun t => t.mem.readBytes 0xFFE 2) = some [1, 2] ∧
    err (idle.setI 0xFFE) 0xF255 = some (.memoryOutOfRange 0x1000) ∧
    err (idle.setI 0x1200) 0xF055 = some (.memoryOutOfRange 0x1200) := by decide

/-- V122, V123 and V124. -/
theorem test_ldLoad :
    after (poke ((idle.setI 0x400).setV 3 6) 0x400 [9, 8, 7, 1]) 0xF265
      (fun t => (t.getV 0, t.getV 1, t.getV 2, t.getV 3, t.i)) = some (9, 8, 7, 6, 0x400) ∧
    after (poke (idle.setI 0x400) 0x40F [0x55]) 0xFF65 (fun t => t.getV 15) = some 0x55 ∧
    err (idle.setI 0xFFF) 0xF165 = some (.memoryOutOfRange 0x1000) := by decide

/-- V140 and V141. -/
theorem test_cls :
    after ((white idle).setV 15 9) 0x00E0 (fun t => (t.fb, t.report, t.pc, t.getV 15)) =
      some (Vector.replicate 32 0, ⟨true, false⟩, 0x202, 9) := by decide

/-- S9: glyph 8 over one set pixel. -/
theorem test_drw_collision :
    after (((dot idle 2 1).setI 0x28).setV 1 1 |>.setV 2 2) 0xD125
      (fun t => (t.getV 15, t.report, [1, 2, 3, 4, 5, 6, 7].map fun y => t.fb[y]!)) =
      some (1, ⟨true, false⟩, [0, 0b11100, 0b10010, 0b11110, 0b10010, 0b11110, 0]) := by decide

/-- V144, V148, V149 and V151: wrap on both axes, no rows, out of range, and VF as the origin. -/
theorem test_drw_edges :
    after ((idle.setV 1 60).setV 2 30) 0xD125 (fun t => (t.getV 15, [29, 30, 31, 0, 1, 2, 3].map fun y => t.fb[y]!)) =
      some (0, [0, 0xF000000000000000, 0x9000000000000000, 0x9000000000000000, 0x9000000000000000,
        0xF000000000000000, 0]) ∧
    after ((idle.setI 0xFFFF).setV 15 1) 0xD120 (fun t => (t.getV 15, t.report)) = some (0, ⟨true, false⟩) ∧
    err (idle.setI 0xFFE) 0xD123 = some (.memoryOutOfRange 0x1000) ∧
    after (poke ((dot idle 0 3).setI 0x300 |>.setV 15 3) 0x300 [0xC0]) 0xDF01 (fun t => (t.getV 15, t.fb[0])) =
      some (1, 0b10000) := by decide

/-- V160 to V165. -/
theorem test_key_skips :
    after (((given [7] 0).setV 0 7).setPc 0x202) 0xE09E (fun t => t.pc) = some 0x206 ∧
    after ((idle.setV 0 7).setPc 0x202) 0xE09E (fun t => t.pc) = some 0x204 ∧
    after ((idle.setV 0 7).setPc 0x202) 0xE0A1 (fun t => t.pc) = some 0x206 ∧
    after (((given [7] 0).setV 0 7).setPc 0x202) 0xE0A1 (fun t => t.pc) = some 0x204 ∧
    err (idle.setV 0 0x10) 0xE09E = some (.keyIndexOutOfRange 0x10) ∧
    err (idle.setV 0 0xFF) 0xE0A1 = some (.keyIndexOutOfRange 0xFF) := by decide

/-- V168, V169 and V170. -/
theorem test_ldVxK :
    after (given [5, 9] 0) 0xF30A (fun t => (t.getV 3, t.pc)) = some (5, 0x202) ∧
    after { idle with dt := 3, st := 2 } 0xF30A (fun t => (t.pc, t.dt, t.st, t.report)) =
      some (0x200, 2, 1, ⟨false, false⟩) ∧
    after (given [0xC] 0) 0xFF0A (fun t => t.getV 15) = some 0xC := by decide

/-- V171, V173, V176, V178 and V179. -/
theorem test_timers :
    after { idle with dt := 4 } 0xF407 (fun t => (t.getV 4, t.dt)) = some (4, 3) ∧
    after (idle.setV 3 5) 0xF315 (fun t => t.dt) = some 4 ∧
    after (idle.setV 3 2) 0xF318 (fun t => (t.st, t.report)) = some (1, ⟨false, false⟩) ∧
    after (idle.setV 3 1) 0xF318 (fun t => (t.st, t.report)) = some (0, ⟨false, true⟩) ∧
    after idle 0x6000 (fun t => (t.st, t.report)) = some (0, ⟨false, false⟩) := by decide

/-- V193 and V194. -/
theorem test_load :
    loadProgram [] idle = .ok idle ∧
    (loadProgram [0x12, 0x00] idle).toOption.bind (fun s => (nextOf (step s)).map (·.pc)) = some 0x200 := by decide

/-! ### Witnesses: concrete states and operands that meet the hypotheses of each obligation that has some, clause by
clause, at boundary values -/

/-- The state of a step of `6A5C` at the last word of memory, with the beep due. -/
def lastWord : State := ({ idle with st := 1 }.setPc 0xFFE).withFetchWord 16 0x6A5C

/-- The state of a step that reaches the greatest target, `BFFF` with V0 = 0xFF. -/
def farJump : State := (idle.setV 0 0xFF).withFetchWord 16 0xBFFF

/-- A state with a word of `UnknownOpcode` at pc, ready for any inputs. -/
def unknownAhead : State := { idle with inputs := [] }

theorem witness_DecodeOfEncodeIsTheInstruction : WellFormed (.drw 15 0 15) = true := by decide

theorem witness_EncodeOfDecodeIsTheWord : decode 0xDF0F#16 = .ok (.drw 15 0 15) := by decide

theorem witness_RowMatchDecidesTheInstruction :
    decode 0xF065#16 = .ok (.ldLoad 0) ∧ 0xFF65#16 &&& (Instr.ldLoad 0).row.mask = (Instr.ldLoad 0).row.value := by
  decide

/-- One word for each clause of the five groups. -/
theorem witness_GroupDiscriminantsDecide :
    fieldOp 0x5FF0#16 = 0x5#4 ∧ fieldOp 0x9FFF#16 = 0x9#4 ∧
    (∀ n ∈ [0x0#4, 0x1#4, 0x2#4, 0x3#4, 0x4#4, 0x5#4, 0x6#4, 0x7#4, 0xE#4, 0x8#4, 0xF#4],
      fieldOp (formatXYN 0x8#4 15 0 n) = 0x8#4 ∧ fieldN (formatXYN 0x8#4 15 0 n) = n) ∧
    (∀ n ∈ [0x9E#8, 0xA1#8, 0xA2#8], fieldOp (formatXNN 0xE#4 15 n) = 0xE#4 ∧ fieldNN (formatXNN 0xE#4 15 n) = n) ∧
    (∀ n ∈ [0x07#8, 0x0A#8, 0x15#8, 0x18#8, 0x1E#8, 0x29#8, 0x33#8, 0x55#8, 0x65#8, 0x66#8],
      fieldOp (formatXNN 0xF#4 15 n) = 0xF#4 ∧ fieldNN (formatXNN 0xF#4 15 n) = n) := by decide

theorem witness_UnmatchedWordRaisesUnknownOpcode : fetchWord State.reset = .ok 0x0000#16 := by decide

/-- The first and the last address of each clause on memory. -/
theorem witness_ResetMemoryAndRegisters :
    0 < font.length ∧ 79 < font.length ∧ 0x50 ≤ 0x50 ∧ 0x50 ≤ 0xFFF := by decide

theorem inv_lastWord : lastWord.Inv := ⟨by decide, by decide⟩

theorem inv_farJump : farJump.Inv := ⟨by decide, by decide⟩

theorem witness_EveryStepKeepsTheInvariant : lastWord.Inv ∧ ∃ t, step lastWord = .next t :=
  ⟨inv_lastWord, next_of_isSome (by decide)⟩

theorem witness_EveryReachableStateMeetsTheInvariant :
    ∃ s, loadProgram [0x12, 0x00] new = .ok s ∧
      Reachable (skipWord (hostStep (Vector.replicate 16 false) 0 s).1) :=
  ⟨_, rfl, .skip (.step (@Reachable.load _ _ [0x12, 0x00] .new rfl))⟩

theorem witness_PcAfterAStepIsBounded : farJump.Inv ∧ ∃ t, step farJump = .next t :=
  ⟨inv_farJump, next_of_isSome (by decide)⟩

theorem witness_StepRunsTheDecodedInstruction :
    lastWord.pc.toNat + 2 ≤ 0x1000 ∧
    decodeBytes [lastWord.mem.read lastWord.pc.toNat, lastWord.mem.read (lastWord.pc.toNat + 1)] =
      .ok (.ldImm 10 0x5C, []) := by
  refine ⟨by decide, rfl⟩

theorem witness_PlacedWordIsTheNextInstruction :
    WellFormed (.drw 15 0 15) = true ∧ (idle.setPc 0xFFE).pc.toNat + 2 ≤ 0x1000 := by decide

theorem witness_FetchOutOfRangeFaults : 0xFFF ≤ (idle.setPc 0xFFF).pc.toNat := by decide

theorem witness_TimersTickAtTheEndOfEveryStep : ∃ t, step lastWord = .next t := next_of_isSome (by decide)

theorem witness_TimersCountDownUnlessWritten :
    fetchInstr lastWord = .ok (.ldImm 10 0x5C) ∧ (∃ t, step lastWord = .next t) ∧
    (∀ x, Instr.ldImm 10 0x5C ≠ .ldDtVx x) ∧ (∀ x, Instr.ldImm 10 0x5C ≠ .ldStVx x) :=
  ⟨rfl, next_of_isSome (by decide), by decide, by decide⟩

/-- A step that beeps and reports, and one that raises an error. -/
theorem witness_ReportSaysScreenAndBeep :
    (∃ t rep, hostStep (Vector.replicate 16 false) 0 lastWord = (t, .next rep)) ∧
    fetchInstr lastWord = .ok (.ldImm 10 0x5C) ∧
    step (idle.withInput (Vector.replicate 16 false) 0) = .fault (.unknownOpcode 0x0000) :=
  ⟨⟨_, _, rfl⟩, rfl, fault_of_eq (by decide)⟩

/-- The only byte of a one-register store at the last address, and a register write. -/
theorem witness_EveryInstructionKeepsItsFrame :
    (∃ t, exec (.ldStore 0) (idle.setI 0xFFF) = .next t) ∧ ∃ t, exec (.sub 15 15) idle = .next t :=
  ⟨next_of_isSome (by decide), next_of_isSome (by decide)⟩

/-- Each error is raised by some instruction. -/
theorem witness_ErrorsAreExactlyTheListedOnes :
    exec .ret idle = .fault .stackUnderflow ∧ exec (.call 0) { idle with sp := 16 } = .fault .stackOverflow ∧
    exec (.ldF 0) (idle.setV 0 0x10) = .fault (.invalidSpriteIndex 0x10) ∧
    exec (.skp 0) (idle.setV 0 0x10) = .fault (.keyIndexOutOfRange 0x10) ∧
    exec (.ldB 0) (idle.setI 0xFFE) = .fault (.memoryOutOfRange 0x1000) :=
  ⟨fault_of_eq (by decide), fault_of_eq (by decide), fault_of_eq (by decide), fault_of_eq (by decide),
    fault_of_eq (by decide)⟩

theorem witness_FailedStepLeavesTheState :
    step (unknownAhead.withInput (Vector.replicate 16 true) 7) = .fault (.unknownOpcode 0x0000) :=
  fault_of_eq (by decide)

theorem witness_RetriedStepRaisesTheSameError :
    step (unknownAhead.withInput (Vector.replicate 16 false) 0) = .fault (.unknownOpcode 0x0000) :=
  fault_of_eq (by decide)

theorem witness_InputsReachOnlyTheirInstructions :
    fetchInstr lastWord = .ok (.ldImm 10 0x5C) ∧ (∀ x nn, Instr.ldImm 10 0x5C ≠ .rnd x nn) ∧
    ∀ x, Instr.ldImm 10 0x5C ≠ .skp x ∧ Instr.ldImm 10 0x5C ≠ .sknp x ∧ Instr.ldImm 10 0x5C ≠ .ldVxK x :=
  ⟨rfl, by simp, by simp⟩

theorem witness_RetPopsTheReturnAddress :
    0x00EE#16 &&& 0xFFFF#16 = 0x00EE#16 ∧ 0 < ({ idle with sp := 1 } : State).sp.val ∧
    0 < ({ idle with sp := 16 } : State).sp.val ∧ idle.sp.val = 0 := by decide

theorem witness_JpSetsPc :
    0x1FFF#16 &&& 0xF000#16 = 0x1000#16 ∧ (0xFFF#12).toNat = 0xFFF ∧
    fetchInstr (idle.withFetchWord 16 0x1200) = .ok (.jp 0x200) ∧
    (idle.withFetchWord 16 0x1200).pc.toNat = (0x200#12).toNat := ⟨by decide, by decide, rfl, by decide⟩

theorem witness_CallPushesTheNextAddress :
    0x2FFF#16 &&& 0xF000#16 = 0x2000#16 ∧ ({ idle with sp := 15 } : State).sp.val < 16 ∧
    ({ idle with sp := 16 } : State).sp.val = 16 := by decide

/-- The least target that the next fetch cannot reach. -/
theorem witness_JpV0AddsV0 :
    0xBFFF#16 &&& 0xF000#16 = 0xB000#16 ∧
    ∃ t, exec (.jpV0 0xFFF) idle = .next t ∧ 0xFFE < t.pc.toNat := ⟨by decide, _, rfl, by decide⟩

theorem witness_ImmediateSkipsAdvancePc :
    0x3FFF#16 &&& 0xF000#16 = 0x3000#16 ∧ 0x4FFF#16 &&& 0xF000#16 = 0x4000#16 := by decide

theorem witness_RegisterSkipsAdvancePc :
    0x5FF0#16 &&& 0xF00F#16 = 0x5000#16 ∧ 0x9FF0#16 &&& 0xF00F#16 = 0x9000#16 ∧
    fieldOp 0x5FF1#16 = 0x5#4 ∧ fieldN 0x5FF1#16 ≠ 0x0#4 ∧ fieldOp 0x9FFF#16 = 0x9#4 ∧ fieldN 0x9FFF#16 ≠ 0x0#4 := by
  decide

theorem witness_CallThenRetComesBack : ({ idle with sp := 15 } : State).sp.val < 16 := by decide

theorem witness_LdImmLoadsTheImmediate : 0x6FFF#16 &&& 0xF000#16 = 0x6000#16 := by decide

theorem witness_AddImmWrapsAndSetsNoFlag : 0x7FFF#16 &&& 0xF000#16 = 0x7000#16 := by decide

theorem witness_LdRegCopies : 0x8FF0#16 &&& 0xF00F#16 = 0x8000#16 := by decide

theorem witness_LogicIsBitwiseAndSetsNoFlag :
    0x8FF1#16 &&& 0xF00F#16 = 0x8001#16 ∧ 0x8FF2#16 &&& 0xF00F#16 = 0x8002#16 ∧
    0x8FF3#16 &&& 0xF00F#16 = 0x8003#16 := by decide

theorem witness_AddRegSetsTheCarry : 0x8FF4#16 &&& 0xF00F#16 = 0x8004#16 ∧ (14 : Reg) ≠ vf := by decide

theorem witness_SubtractionsSetTheBorrow :
    0x8FF5#16 &&& 0xF00F#16 = 0x8005#16 ∧ 0x8FF7#16 &&& 0xF00F#16 = 0x8007#16 ∧ (14 : Reg) ≠ vf := by decide

theorem witness_ShiftsSetTheBitShiftedOut :
    0x8FF6#16 &&& 0xF00F#16 = 0x8006#16 ∧ 0x8FFE#16 &&& 0xF00F#16 = 0x800E#16 ∧ (14 : Reg) ≠ vf := by decide

theorem witness_RndMasksTheDraw :
    0xCFFF#16 &&& 0xF000#16 = 0xC000#16 ∧ (0x00#8).toNat = 0 ∧ (0xFF#8).toNat = 0xFF := by decide

theorem witness_LdISetsTheIndex : 0xAFFF#16 &&& 0xF000#16 = 0xA000#16 := by decide

theorem witness_AddIWrapsAndSetsNoFlag : 0xFF1E#16 &&& 0xF0FF#16 = 0xF01E#16 := by decide

theorem witness_LdFPointsAtTheGlyph :
    0xFF29#16 &&& 0xF0FF#16 = 0xF029#16 ∧ ((idle.setV 2 0x0F).getV 2).toNat ≤ 0xF ∧
    0xF < (((idle.setV 2 0x10).withFetchWord 16 0xF229).getV 2).toNat ∧
    fetchInstr ((idle.setV 2 0x10).withFetchWord 16 0xF229) = .ok (.ldF 2) :=
  ⟨by decide, by decide, by decide, rfl⟩

theorem witness_LdBStoresThreeDigits :
    0xFF33#16 &&& 0xF0FF#16 = 0xF033#16 ∧ (idle.setI 0xFFD).i.toNat + 2 < 0x1000 ∧
    0x1000 ≤ (idle.setI 0xFFE).i.toNat + 2 := by decide

theorem witness_LdStoreStoresRegisters :
    0xFF55#16 &&& 0xF0FF#16 = 0xF055#16 ∧ (idle.setI 0xFF0).i.toNat + (15 : Reg).val < 0x1000 ∧
    0x1000 ≤ (idle.setI 0xFF1).i.toNat + (15 : Reg).val ∧ (15 : Reg) ≤ 15 := by decide

theorem witness_LdLoadLoadsRegisters :
    0xFF65#16 &&& 0xF0FF#16 = 0xF065#16 ∧ (idle.setI 0xFFF).i.toNat + (0 : Reg).val < 0x1000 ∧
    0x1000 ≤ (idle.setI 0x1000).i.toNat + (0 : Reg).val ∧ (0 : Reg) ≤ 0 ∧ (0 : Reg) < 1 := by decide

theorem witness_StoreThenLoadRestoresRegisters : (idle.setI 0xFF0).i.toNat + (15 : Reg).val < 0x1000 := by decide

theorem witness_StoredBytesAreFetched :
    (idle.setI 0xFF0).i.toNat + (15 : Reg).val < 0x1000 ∧ (15 : Reg).val = (14 : Reg).val + 1 ∧ (15 : Reg) ≤ 15 ∧
    (0xFFE#16).toNat = (idle.setI 0xFF0).i.toNat + (14 : Reg).val := by decide

theorem witness_ClsClearsTheScreen : 0x00E0#16 &&& 0xFFFF#16 = 0x00E0#16 := by decide

/-- A well-formed draw: the last rows of memory, no rows at an address that does not exist, and rows past the end. -/
theorem witness_DrwXorsTheSprite :
    0xDFFF#16 &&& 0xF000#16 = 0xD000#16 ∧ WellFormed (.drw 0 0 15) = true ∧ WellFormed (.drw 0 0 0) = true ∧
    (idle.setI 0xFF1).i.toNat + 15 - 1 < 0x1000 ∧ 0x1000 ≤ (idle.setI 0xFF2).i.toNat + 15 - 1 := by decide

/-- Glyph 0 at the origin: a pixel under the sprite that is set, one that is clear, and all pixels clear or set. -/
theorem witness_sprite_pixels :
    SpriteCovers idle.mem 0 5 0 0 0 0 ∧ Framebuffer.pixel (dot idle 0 0).fb 0 0 = true ∧
    Framebuffer.pixel idle.fb 0 0 = false ∧ (∀ y x, Framebuffer.pixel idle.fb y x = false) ∧
    ∀ y x, Framebuffer.pixel (white idle).fb y x = true :=
  ⟨⟨0, 0, by decide, by decide, by decide, by decide, by decide⟩, by decide, by decide,
    fun y x => by simp [Framebuffer.pixel, idle, given, State.reset],
    fun y x => by
      simp only [Framebuffer.pixel, white, Vector.getElem_replicate, BitVec.getLsbD_allOnes, decide_eq_true_eq]
      exact x.isLt⟩

/-- The greatest row count at the greatest address for it, VF as the origin and other registers; a register file that
holds the origin again is that of the start. -/
theorem witness_DrawingTwiceRestoresTheScreen :
    WellFormed (.drw 15 15 15) = true ∧ (idle.setI 0xFF1).i.toNat + 15 - 1 < 0x1000 ∧
    (0 : Reg) ≠ vf ∧ (14 : Reg) ≠ vf ∧ ∃ v : Vector Byte 16, v[(15 : Reg).val] = (idle.setI 0xFF1).getV 15 :=
  ⟨by decide, by decide, by decide, by decide, (idle.setI 0xFF1).v, rfl⟩

theorem witness_KeySkipsReadTheLatch :
    0xEF9E#16 &&& 0xF0FF#16 = 0xE09E#16 ∧ 0xEFA1#16 &&& 0xF0FF#16 = 0xE0A1#16 ∧
    ((idle.setV 0 0x0F).getV 0).toNat < 16 ∧ 0xF < ((idle.setV 0 0x10).getV 0).toNat := by decide

theorem witness_LdVxDtReadsTheDelayTimer :
    0xFF07#16 &&& 0xF0FF#16 = 0xF007#16 ∧ fetchInstr (idle.withFetchWord 16 0xF407) = .ok (.ldVxDt 4) :=
  ⟨by decide, rfl⟩

/-- The greatest key alone, and no key. -/
theorem witness_LdVxKTakesTheLowestKeyOrWaits :
    0xFF0A#16 &&& 0xF0FF#16 = 0xF00A#16 ∧ (given [15] 0).keys[15] = true ∧
    (∀ j : Fin 16, j < 15 → (given [15] 0).keys[j.val] = false) ∧
    (∀ k : Fin 16, (idle.withFetchWord 16 0xF30A).keys[k.val] = false) ∧
    fetchInstr (idle.withFetchWord 16 0xF30A) = .ok (.ldVxK 3) :=
  ⟨by decide, by decide, by decide, by decide, rfl⟩

theorem witness_TimerWritesTickInTheSameStep :
    0xFF15#16 &&& 0xF0FF#16 = 0xF015#16 ∧ 0xFF18#16 &&& 0xF0FF#16 = 0xF018#16 ∧
    fetchInstr (idle.withFetchWord 16 0xF315) = .ok (.ldDtVx 3) ∧
    fetchInstr (idle.withFetchWord 16 0xF318) = .ok (.ldStVx 3) := ⟨by decide, by decide, rfl, rfl⟩

/-- The longest image that is loaded and the shortest that is not, the lengths of V191 and V192. -/
theorem witness_LoadProgramCopiesTheImage :
    (List.replicate 3584 (0 : Byte)).length ≤ 3584 ∧ 3584 < (List.replicate 3585 (0 : Byte)).length := by
  simp only [List.length_replicate]
  omega

/-- One fetched instruction for each clause on what a step reads, the greatest key number and key, and no key. -/
theorem witness_SuppliedInputsAreTheOnesRead :
    fetchInstr (idle.withFetchWord 16 0xCFFF) = .ok (.rnd 15 0xFF) ∧
    fetchInstr ((idle.setV 0 0x0F).withFetchWord 16 0xE09E) = .ok (.skp 0) ∧
    fetchInstr ((idle.setV 0 0x0F).withFetchWord 16 0xE0A1) = .ok (.sknp 0) ∧
    (((idle.setV 0 0x0F).withFetchWord 16 0xE09E).getV 0).toNat < 16 ∧
    (((idle.setV 0 0x0F).withFetchWord 16 0xE0A1).getV 0).toNat < 16 ∧
    fetchInstr (idle.withFetchWord 16 0xF30A) = .ok (.ldVxK 3) ∧
    (given [15] 0).keys[15] = true ∧ (∀ j : Fin 16, j < 15 → (given [15] 0).keys[j.val] = false) ∧
    (∀ k : Fin 16, (given [] 0).keys[k.val] = false) ∧
    ∃ t rep, hostStep (Vector.replicate 16 false) 0 lastWord = (t, .next rep) :=
  ⟨rfl, rfl, rfl, by decide, by decide, rfl, by decide, by decide, by decide, _, _, rfl⟩

end Sys2Proof.Tests
end

section
/-! Proofs of the family 10_state: what each shared operation that passes its check answers, what an instruction does
to the report of its step, and the contents of the state after construction. -/

namespace Sys2Proof.Machine

/-! ### Shared operations, inverted -/

/-- A store that passes its check writes the whole run and nothing else. -/
theorem storeBytes_ok_iff {s t : State} {a : Word} {bs : List Byte} :
    storeBytes s a bs = .ok t ↔
      inRange a bs.length = true ∧ t = { s with mem := s.mem.writeBytes a.toNat bs } := by
  rw [storeBytes_eq]
  cases inRange a bs.length <;> simp [eq_comm]

/-- A push that passes its check fills the next free slot and nothing else. -/
theorem push_ok_iff {s t : State} {w : Word} :
    push s w = .ok t ↔ ∃ h : s.sp.val < 16,
      t = { s with stack := s.stack.set s.sp.val w h, sp := ⟨s.sp.val + 1, Nat.succ_lt_succ h⟩ } := by
  by_cases h : s.sp.val < 16
  · simp [push_ok s w h, h, eq_comm]
  · simp [push_full s w (by omega), h]

/-- A pop that passes its check answers the last slot and only moves sp. -/
theorem pop_ok_iff {s : State} {p : Word × State} :
    pop s = .ok p ↔ ∃ _ : 0 < s.sp.val,
      p = (s.stack[s.sp.val - 1], { s with sp := ⟨s.sp.val - 1, by omega⟩ }) := by
  by_cases h : 0 < s.sp.val
  · obtain ⟨q, hq, hw, ht⟩ := pop_ok s h
    have hpair : q = (s.stack[s.sp.val - 1], { s with sp := ⟨s.sp.val - 1, by omega⟩ }) := Prod.ext hw ht
    simp [hq, hpair, h, eq_comm]
  · rw [pop_empty s (by omega)]
    simp [h]

/-- Waiting for a key gives no report of its own. -/
@[simp] theorem keyWaitState_report (x : Reg) (s : State) : (keyWaitState x s).report = s.report := by
  unfold keyWaitState
  split <;> rfl

/-! ### The report of a step (10_state.md R50) -/

/-- The instructions that may write the report are 00E0 and Dxyn. -/
theorem report_mem_writtenParts_iff {i : Instr} :
    Part.report ∈ writtenParts i ↔ i = .cls ∨ ∃ x y n, i = .drw x y n := by
  cases i <;> simp [writtenParts]

/-- 00E0 and Dxyn set the screen bit of the report and keep its other bit. -/
theorem exec_report_of_mem {i : Instr} {s u : State} (hi : Part.report ∈ writtenParts i)
    (h : exec i s = .next u) : u.report = { s.report with framebufferChanged := true } := by
  rcases report_mem_writtenParts_iff.1 hi with rfl | ⟨x, y, n, rfl⟩
  · cases h
    rfl
  · obtain ⟨rows, -, hu⟩ := whenOk_next_iff.1 h
    cases hu
    rfl

/-- Every other instruction keeps the report. -/
theorem exec_report_of_notMem {i : Instr} {s u : State} (hi : Part.report ∉ writtenParts i)
    (h : exec i s = .next u) : u.report = s.report := by
  cases i with
  | cls | drw => exact absurd (by simp [writtenParts]) hi
  | ret =>
    obtain ⟨p, hp, hu⟩ := whenOk_next_iff.1 h
    obtain ⟨_, rfl⟩ := pop_ok_iff.1 hp
    cases hu
    rfl
  | call nnn =>
    obtain ⟨t, ht, hu⟩ := whenOk_next_iff.1 h
    obtain ⟨_, rfl⟩ := push_ok_iff.1 ht
    cases hu
    rfl
  | ldB | ldStore =>
    obtain ⟨t, ht, hu⟩ := whenOk_next_iff.1 h
    obtain ⟨-, rfl⟩ := storeBytes_ok_iff.1 ht
    cases hu
    rfl
  | ldLoad | ldF | skp | sknp =>
    obtain ⟨_, -, hu⟩ := whenOk_next_iff.1 h
    cases hu
    rfl
  | ldVxK x =>
    cases h
    exact keyWaitState_report x s
  | jp | jpV0 | seImm | sneImm | seReg | sneReg | ldImm | addImm | ldReg | orReg | andReg | xorReg | addReg | sub
  | shr | subn | shl | rnd | ldI | addI | ldVxDt | ldDtVx | ldStVx =>
    cases h
    rfl

/-- From a cleared report, the screen bit is set exactly by 00E0 and Dxyn; the timer update keeps it. -/
theorem endStep_framebufferChanged_iff {i : Instr} {s u : State} (h : exec i (beginStep s) = .next u) :
    (endStep u).report.framebufferChanged = true ↔ i = .cls ∨ ∃ x y n, i = .drw x y n := by
  rw [← report_mem_writtenParts_iff]
  by_cases hi : Part.report ∈ writtenParts i
  · simp [exec_report_of_mem hi h, hi]
  · simp [exec_report_of_notMem hi h, hi]

/-- The beep edge is that the timer update found ST = 1, which it takes to 0 (60_exceptions.md R215). -/
theorem endStep_beepEdge_iff (u : State) :
    (endStep u).report.beepEdge = true ↔ u.st.toNat = 1 ∧ (endStep u).st.toNat = 0 := by
  have hst : u.st = 1 ↔ u.st.toNat = 1 := BitVec.toNat_inj.symm
  simp only [endStep_report, endStep_st, decide_eq_true_eq, toNat_tick, hst]
  omega

/-- A step that raises an error gives the host the error, no report, and the state before it. -/
theorem hostStep_of_fault {keys : KeyLatch} {raw : Byte} {s : State} {e : Fault}
    (h : step (s.withInput keys raw) = .fault e) : hostStep keys raw s = (s, .fault e) := by
  simp only [hostStep, h]

/-- Settles O18: only 00E0 and Dxyn touch the cleared report, and the beep edge is the timer update's. -/
theorem reportSaysScreenAndBeep : Obligations.ReportSaysScreenAndBeep := by
  intro keys raw s
  refine ⟨fun t rep i hstep hfetch => ?_, fun e he => by rw [hostStep_of_fault he]⟩
  obtain ⟨j, u, hj, hexec, rfl, rfl⟩ := hostStep_next_iff.1 hstep
  obtain rfl : j = i := Except.ok.inj (hj.symm.trans hfetch)
  constructor
  · exact endStep_framebufferChanged_iff hexec
  · rw [endStep_beepEdge_iff]
    simp [hexec]

/-! ### The state after construction (10_state.md R47, R48) -/

theorem length_font : font.length = 80 := rfl

/-- Below the end of the font an address that nothing has written reads as the font. -/
theorem Memory.background_of_lt_font {a : Nat} (h : a < font.length) : Memory.background a = font[a] := by
  have ha : a < Config.fontSize := h.trans_eq length_font
  simp [Memory.background, ha, h]

/-- From the end of the font up an address that nothing has written reads as 0. -/
theorem Memory.background_of_font_le {a : Nat} (h : Config.fontSize ≤ a) : Memory.background a = 0 :=
  if_neg (Nat.not_lt.2 h)

@[simp] theorem State.reset_read (a : Nat) : State.reset.mem.read a = Memory.background a := rfl

@[simp] theorem State.reset_getV (x : Reg) : State.reset.getV x = 0 := by
  simp [State.getV, State.reset]

@[simp] theorem State.reset_stack (k : Fin 16) : State.reset.stack[k.val] = 0 := by
  simp [State.reset]

/-- Settles O7: memory after construction reads as its background, and the registers are those of `State.reset`. -/
theorem resetMemoryAndRegisters : Obligations.ResetMemoryAndRegisters :=
  ⟨length_font, fun _ h => Memory.background_of_lt_font h, fun _ h _ => Memory.background_of_font_le h,
    State.reset_getV, rfl, rfl, rfl, State.reset_stack, rfl⟩

end Sys2Proof.Machine
end

section
/-! Proofs of the family 30_encoding: the second level of the decoder's match, in the groups whose low nibble or low
byte decides (30_encoding.md R83). -/

namespace Sys2Proof

/-! ### From the group to its own decoder -/

theorem decode_of_group5 {w : Word} (h : fieldOp w = 0x5#4) : decode w = decodeRegSkip .seReg w := by
  simp only [decode, h]

theorem decode_of_group8 {w : Word} (h : fieldOp w = 0x8#4) : decode w = decodeGroup8 w := by
  simp only [decode, h]

theorem decode_of_group9 {w : Word} (h : fieldOp w = 0x9#4) : decode w = decodeRegSkip .sneReg w := by
  simp only [decode, h]

theorem decode_of_groupE {w : Word} (h : fieldOp w = 0xE#4) : decode w = decodeGroupE w := by
  simp only [decode, h]

theorem decode_of_groupF {w : Word} (h : fieldOp w = 0xF#4) : decode w = decodeGroupF w := by
  simp only [decode, h]

/-! ### The words a group rejects (30_encoding.md R85 to R88) -/

/-- A register skip is decoded exactly where the low nibble is 0. -/
theorem decodeRegSkip_eq_ite (mk : Reg → Reg → Instr) (w : Word) :
    decodeRegSkip mk w = if fieldN w = 0x0#4 then .ok (mk (fieldX w) (fieldY w)) else .error ⟨w⟩ := by
  unfold decodeRegSkip
  split
  case h_1 hn => rw [if_pos hn]
  case h_2 hn => rw [if_neg hn]

theorem decodeGroup8_eq_error {w : Word}
    (hn : fieldN w ∈ [0x8#4, 0x9#4, 0xA#4, 0xB#4, 0xC#4, 0xD#4, 0xF#4]) : decodeGroup8 w = .error ⟨w⟩ := by
  simp only [List.mem_cons, List.not_mem_nil, or_false] at hn
  rcases hn with hn | hn | hn | hn | hn | hn | hn <;> simp [decodeGroup8, hn]

theorem decodeGroupE_eq_error {w : Word} (hn : fieldNN w ∉ [0x9E#8, 0xA1#8]) : decodeGroupE w = .error ⟨w⟩ := by
  simp only [List.mem_cons, List.not_mem_nil, or_false, not_or] at hn
  simp only [decodeGroupE, hn, imp_false, not_false_eq_true]

theorem decodeGroupF_eq_error {w : Word}
    (hn : fieldNN w ∉ [0x07#8, 0x0A#8, 0x15#8, 0x18#8, 0x1E#8, 0x29#8, 0x33#8, 0x55#8, 0x65#8]) :
    decodeGroupF w = .error ⟨w⟩ := by
  simp only [List.mem_cons, List.not_mem_nil, or_false, not_or] at hn
  simp only [decodeGroupF, hn, imp_false, not_false_eq_true]

/-- Settles O5: the group selects its own decoder, whose match is on the discriminant. -/
theorem groupDiscriminantsDecide : Obligations.GroupDiscriminantsDecide := by
  intro w
  refine ⟨fun h => ?group5, fun h => ?group9, fun h => ?group8, fun h => ?groupE, fun h => ?groupF⟩
  case group5 => rw [decode_of_group5 h, decodeRegSkip_eq_ite]
  case group9 => rw [decode_of_group9 h, decodeRegSkip_eq_ite]
  case group8 =>
    rw [decode_of_group8 h]
    refine ⟨?_, ?_, ?_, ?_, ?_, ?_, ?_, ?_, ?_, decodeGroup8_eq_error⟩ <;>
      exact fun hn => by simp only [decodeGroup8, hn]
  case groupE =>
    rw [decode_of_groupE h]
    refine ⟨?_, ?_, decodeGroupE_eq_error⟩ <;> exact fun hn => by simp only [decodeGroupE, hn]
  case groupF =>
    rw [decode_of_groupF h]
    refine ⟨?_, ?_, ?_, ?_, ?_, ?_, ?_, ?_, ?_, decodeGroupF_eq_error⟩ <;>
      exact fun hn => by simp only [decodeGroupF, hn]

end Sys2Proof
end

section
/-! Proofs of the family 41_control_flow: the rows of the jumps and skips, what a change of pc alone leaves alone, the
fetch past the end of memory, and the four statements on jumps and skips. -/

namespace Sys2Proof

/-! ### Groups with one instruction, and the register skips -/

theorem decode_of_group1 {w : Word} (h : fieldOp w = 0x1#4) : decode w = .ok (.jp (fieldNNN w)) := by
  simp only [decode, h]

theorem decode_of_group3 {w : Word} (h : fieldOp w = 0x3#4) : decode w = .ok (.seImm (fieldX w) (fieldNN w)) := by
  simp only [decode, h]

theorem decode_of_group4 {w : Word} (h : fieldOp w = 0x4#4) : decode w = .ok (.sneImm (fieldX w) (fieldNN w)) := by
  simp only [decode, h]

theorem decode_of_groupB {w : Word} (h : fieldOp w = 0xB#4) : decode w = .ok (.jpV0 (fieldNNN w)) := by
  simp only [decode, h]

/-- A register skip is decoded where the low nibble is 0. -/
theorem decodeRegSkip_eq_ok {w : Word} (mk : Reg → Reg → Instr) (hn : fieldN w = 0x0#4) :
    decodeRegSkip mk w = .ok (mk (fieldX w) (fieldY w)) := by
  rw [decodeRegSkip_eq_ite, if_pos hn]

theorem decodeRegSkip_eq_error {w : Word} (mk : Reg → Reg → Instr) (hn : fieldN w ≠ 0x0#4) :
    decodeRegSkip mk w = .error ⟨w⟩ := by
  rw [decodeRegSkip_eq_ite, if_neg hn]

end Sys2Proof

namespace Sys2Proof.Machine

/-! ### Rows of the opcode map (30_encoding.md R90) -/

/-- A row with mask 0xF000 is a whole group. -/
theorem rowDecodesTo_of_group {value : Word} {f : Word → Instr}
    (hdec : ∀ w, fieldOp w = fieldOp value → decode w = .ok (f w)) : RowDecodesTo value 0xF000#16 f :=
  fun w hw => hdec w (extractLsb'_of_mask hw 12 4 rfl)

/-- A row of a register-skip group is the part of the group whose low nibble is 0 (30_encoding.md R85). -/
theorem rowDecodesTo_of_regSkip {value : Word} {mk : Reg → Reg → Instr} (hn : fieldN value = 0x0#4)
    (hdec : ∀ w, fieldOp w = fieldOp value → decode w = decodeRegSkip mk w) :
    RowDecodesTo value 0xF00F#16 (fun w => mk (fieldX w) (fieldY w)) :=
  fun w hw => by
    have hgroup : fieldOp w = fieldOp value := extractLsb'_of_mask hw 12 4 rfl
    have hnibble : fieldN w = fieldN value := extractLsb'_of_mask hw 0 4 rfl
    rw [hdec w hgroup, decodeRegSkip_eq_ok mk (hnibble.trans hn)]

/-! ### The meanings of the jumps and skips -/

theorem exec_jp (nnn : Addr12) (s : State) : exec (.jp nnn) s = .next (s.setPc (addrOperand nnn)) := rfl

theorem exec_jpV0 (nnn : Addr12) (s : State) : exec (.jpV0 nnn) s = .next (s.setPc (indexedTarget s nnn)) := rfl

theorem exec_seImm (x : Reg) (nn : Byte) (s : State) :
    exec (.seImm x nn) s = .next (s.skipIf (s.getV x == nn)) := rfl

theorem exec_sneImm (x : Reg) (nn : Byte) (s : State) :
    exec (.sneImm x nn) s = .next (s.skipIf (s.getV x != nn)) := rfl

theorem exec_seReg (x y : Reg) (s : State) :
    exec (.seReg x y) s = .next (s.skipIf (s.getV x == s.getV y)) := rfl

theorem exec_sneReg (x y : Reg) (s : State) :
    exec (.sneReg x y) s = .next (s.skipIf (s.getV x != s.getV y)) := rfl

/-! ### A change of pc alone -/

/-- Setting pc changes nothing else. -/
theorem frameExcept_setPc (s : State) (target : Word) : FrameExcept [] [] s (s.setPc target) :=
  ⟨fun r _ => s.setPc_getV target r, fun p _ => by cases p <;> simp [SamePart]⟩

/-- An instruction that skips on a test of `p` advances pc by 4 or 2 and changes nothing else
(41_control_flow.md R109). -/
theorem exists_next_of_skipIf {r : Result} {s : State} {c : Bool} {p : Prop} [Decidable p]
    (hr : r = .next (s.skipIf c)) (hc : c = true ↔ p) :
    ∃ t, r = .next t ∧ t.pc = s.pc + (if p then 4#16 else 2#16) ∧ FrameExcept [] [] s t :=
  ⟨s.skipIf c, hr, by simp [hc], frameExcept_setPc s _⟩

/-! ### Jump targets -/

@[simp] theorem toNat_addrOperand (nnn : Addr12) : (addrOperand nnn).toNat = nnn.toNat :=
  BitVec.toNat_setWidth_of_le (by decide)

/-- The sum of Bnnn fits in 16 bits without wrap (41_control_flow.md R103). -/
@[simp] theorem toNat_indexedTarget (s : State) (nnn : Addr12) :
    (indexedTarget s nnn).toNat = (s.getV v0).toNat + nnn.toNat := by
  have hv := (s.getV v0).isLt
  have hn := nnn.isLt
  rw [indexedTarget, BitVec.toNat_add, BitVec.toNat_setWidth_of_le (by decide),
    BitVec.toNat_setWidth_of_le (by decide), Nat.mod_eq_of_lt (by omega)]

/-! ### The fetch -/

/-- Above 0xFFE the two bytes of a word do not fit in memory, whatever it holds (20_memory.md R63, R64). -/
theorem step_of_pc_outOfRange {s : State} (h : 0xFFE < s.pc.toNat) :
    step s = .fault (.memoryOutOfRange (lowestOutOfRange s.pc)) := by
  have hr : ¬ inRange s.pc 2 = true := fun hin => by
    have := inRange_iff.1 hin
    omega
  have hw : fetchWord s = .error (.memoryOutOfRange (lowestOutOfRange s.pc)) := by rw [fetchWord_eq, if_neg hr]
  exact step_fault_iff.2 (.inl (by simp only [fetchInstr, hw]))

/-- The fetch reads pc and memory and nothing else. -/
theorem fetchInstr_congr {s t : State} (hpc : t.pc = s.pc) (hmem : t.mem = s.mem) :
    fetchInstr t = fetchInstr s := by
  simp only [fetchInstr, fetchWord, hpc, hmem]

/-! ### The statements -/

/-- Settles O29: both groups share one decoder, which turns on the low nibble, and both skips are `skipIf`. -/
theorem registerSkipsAdvancePc : Obligations.RegisterSkipsAdvancePc := by
  refine ⟨rowDecodesTo_of_regSkip rfl fun _ => decode_of_group5,
    rowDecodesTo_of_regSkip rfl fun _ => decode_of_group9, ?rejected, fun x y s => ⟨?equal, ?different⟩⟩
  case rejected =>
    rintro w (h5 | h9) hn
    · exact (decode_of_group5 h5).trans (decodeRegSkip_eq_error _ hn)
    · exact (decode_of_group9 h9).trans (decodeRegSkip_eq_error _ hn)
  case equal => exact exists_next_of_skipIf (exec_seReg x y s) beq_iff_eq
  case different => exact exists_next_of_skipIf (exec_sneReg x y s) bne_iff_ne

/-- Settles O28: both skips are `skipIf`. -/
theorem immediateSkipsAdvancePc : Obligations.ImmediateSkipsAdvancePc := by
  refine ⟨rowDecodesTo_of_group fun _ => decode_of_group3, rowDecodesTo_of_group fun _ => decode_of_group4,
    fun x nn s => ⟨?equal, ?different⟩⟩
  case equal => exact exists_next_of_skipIf (exec_seImm x nn s) beq_iff_eq
  case different => exact exists_next_of_skipIf (exec_sneImm x nn s) bne_iff_ne

/-- The last byte of memory is the one target of JP that cannot be fetched, and the missing byte is at 0x1000
(41_control_flow.md R101). -/
theorem step_setPc_lastByte {nnn : Addr12} (s : State) (h : nnn.toNat = 0xFFF) :
    step (s.setPc (addrOperand nnn)) = .fault (.memoryOutOfRange 0x1000#16) := by
  have hpc : (s.setPc (addrOperand nnn)).pc.toNat = 0xFFF := (toNat_addrOperand nnn).trans h
  have haddr : lowestOutOfRange (s.setPc (addrOperand nnn)).pc = 0x1000#16 :=
    BitVec.eq_of_toNat_eq (by rw [toNat_lowestOutOfRange, hpc]; rfl)
  rw [step_of_pc_outOfRange (by omega), haddr]

/-- A jump to its own address leaves pc where it is and only ends the step (41_control_flow.md R101). -/
theorem step_jp_self {nnn : Addr12} {s : State} (hf : fetchInstr s = .ok (.jp nnn))
    (hself : s.pc.toNat = nnn.toNat) : step s = .next (endStep (beginStep s)) := by
  have htarget : addrOperand nnn = s.pc := BitVec.eq_of_toNat_eq ((toNat_addrOperand nnn).trans hself.symm)
  have hexec : exec (.jp nnn) (beginStep s) = .next (beginStep s) := by rw [exec_jp, htarget]; rfl
  exact step_next_iff.2 ⟨_, _, hf, hexec, rfl⟩

/-- Settles O25: JP is `setPc`, and a jump to itself ends the step where it began. -/
theorem jpSetsPc : Obligations.JpSetsPc := by
  refine ⟨rowDecodesTo_of_group fun _ => decode_of_group1, fun nnn s => ⟨?jump, fun hf hself => ?self⟩⟩
  case jump =>
    exact ⟨_, exec_jp nnn s, toNat_addrOperand nnn, frameExcept_setPc s _, step_setPc_lastByte s⟩
  case self =>
    exact ⟨_, step_jp_self hf hself, rfl, (fetchInstr_congr rfl rfl).trans hf, toNat_tick s.dt, toNat_tick s.st⟩

/-- Settles O27: JP V0 is `setPc` of a sum that does not wrap. -/
theorem jpV0AddsV0 : Obligations.JpV0AddsV0 := by
  refine ⟨rowDecodesTo_of_group fun _ => decode_of_groupB, fun nnn s =>
    ⟨_, exec_jpV0 nnn s, toNat_indexedTarget s nnn, ?bound, frameExcept_setPc s _,
      fun h => ⟨_, step_of_pc_outOfRange h⟩⟩⟩
  rw [State.setPc_pc, toNat_indexedTarget]
  have hv := (s.getV v0).isLt
  have hn := nnn.isLt
  omega

end Sys2Proof.Machine
end

section
/-! Proofs of the family 42_alu: the rows of the loads and of the ALU, the values of the flags and of the byte
operations as numbers, the frames of a register write and of a result with its flag, and the seven statements. -/

namespace Sys2Proof

/-! ### The groups of the immediates, and the nibbles of group 0x8 (30_encoding.md R86) -/

theorem decode_of_group6 {w : Word} (h : fieldOp w = 0x6#4) : decode w = .ok (.ldImm (fieldX w) (fieldNN w)) := by
  simp only [decode, h]

theorem decode_of_group7 {w : Word} (h : fieldOp w = 0x7#4) : decode w = .ok (.addImm (fieldX w) (fieldNN w)) := by
  simp only [decode, h]

section
variable {w : Word}

theorem decodeGroup8_eq_ldReg (h : fieldN w = 0x0#4) : decodeGroup8 w = .ok (.ldReg (fieldX w) (fieldY w)) := by
  simp only [decodeGroup8, h]

theorem decodeGroup8_eq_orReg (h : fieldN w = 0x1#4) : decodeGroup8 w = .ok (.orReg (fieldX w) (fieldY w)) := by
  simp only [decodeGroup8, h]

theorem decodeGroup8_eq_andReg (h : fieldN w = 0x2#4) : decodeGroup8 w = .ok (.andReg (fieldX w) (fieldY w)) := by
  simp only [decodeGroup8, h]

theorem decodeGroup8_eq_xorReg (h : fieldN w = 0x3#4) : decodeGroup8 w = .ok (.xorReg (fieldX w) (fieldY w)) := by
  simp only [decodeGroup8, h]

theorem decodeGroup8_eq_addReg (h : fieldN w = 0x4#4) : decodeGroup8 w = .ok (.addReg (fieldX w) (fieldY w)) := by
  simp only [decodeGroup8, h]

theorem decodeGroup8_eq_sub (h : fieldN w = 0x5#4) : decodeGroup8 w = .ok (.sub (fieldX w) (fieldY w)) := by
  simp only [decodeGroup8, h]

theorem decodeGroup8_eq_shr (h : fieldN w = 0x6#4) : decodeGroup8 w = .ok (.shr (fieldX w) (fieldY w)) := by
  simp only [decodeGroup8, h]

theorem decodeGroup8_eq_subn (h : fieldN w = 0x7#4) : decodeGroup8 w = .ok (.subn (fieldX w) (fieldY w)) := by
  simp only [decodeGroup8, h]

theorem decodeGroup8_eq_shl (h : fieldN w = 0xE#4) : decodeGroup8 w = .ok (.shl (fieldX w) (fieldY w)) := by
  simp only [decodeGroup8, h]

end

end Sys2Proof

namespace Sys2Proof.Machine

/-- A row of group 0x8 is the part of the group with one low nibble (30_encoding.md R86, R90). -/
theorem rowDecodesTo_of_group8 {value : Word} {f : Word → Instr} (hgroup : fieldOp value = 0x8#4)
    (hdec : ∀ w, fieldN w = fieldN value → decodeGroup8 w = .ok (f w)) : RowDecodesTo value 0xF00F#16 f :=
  fun w hw => by
    have hop : fieldOp w = fieldOp value := extractLsb'_of_mask hw 12 4 rfl
    have hnibble : fieldN w = fieldN value := extractLsb'_of_mask hw 0 4 rfl
    rw [decode_of_group8 (hop.trans hgroup), hdec w hnibble]

/-! ### The meanings of the loads and of the ALU -/

section
variable (x y : Reg) (nn : Byte) (s : State)

theorem exec_ldImm : exec (.ldImm x nn) s = .next (s.setV x nn).nextInstr := rfl

theorem exec_addImm : exec (.addImm x nn) s = .next (s.setV x (s.getV x + nn)).nextInstr := rfl

theorem exec_ldReg : exec (.ldReg x y) s = .next (s.setV x (s.getV y)).nextInstr := rfl

theorem exec_orReg : exec (.orReg x y) s = .next (s.setV x (s.getV x ||| s.getV y)).nextInstr := rfl

theorem exec_andReg : exec (.andReg x y) s = .next (s.setV x (s.getV x &&& s.getV y)).nextInstr := rfl

theorem exec_xorReg : exec (.xorReg x y) s = .next (s.setV x (s.getV x ^^^ s.getV y)).nextInstr := rfl

theorem exec_addReg : exec (.addReg x y) s =
    .next (writeResultThenFlag s x (s.getV x + s.getV y) (carryFlag (s.getV x) (s.getV y))).nextInstr := rfl

theorem exec_sub : exec (.sub x y) s =
    .next (writeResultThenFlag s x (s.getV x - s.getV y) (borrowFlag (s.getV x) (s.getV y))).nextInstr := rfl

theorem exec_subn : exec (.subn x y) s =
    .next (writeResultThenFlag s x (s.getV y - s.getV x) (borrowFlag (s.getV y) (s.getV x))).nextInstr := rfl

theorem exec_shr : exec (.shr x y) s =
    .next (writeResultThenFlag s x (s.getV x >>> 1) (shiftOutRight (s.getV x))).nextInstr := rfl

theorem exec_shl : exec (.shl x y) s =
    .next (writeResultThenFlag s x (s.getV x <<< 1) (shiftOutLeft (s.getV x))).nextInstr := rfl

end

/-! ### Flags and results as numbers -/

theorem toNat_boolByte_decide (p : Prop) [Decidable p] : (boolByte (decide p)).toNat = if p then 1 else 0 := by
  by_cases hp : p <;> simp [boolByte, hp]

theorem toNat_carryFlag (a b : Byte) : (carryFlag a b).toNat = if 256 ≤ a.toNat + b.toNat then 1 else 0 :=
  toNat_boolByte_decide _

theorem toNat_borrowFlag (a b : Byte) : (borrowFlag a b).toNat = if a.toNat < b.toNat then 1 else 0 :=
  toNat_boolByte_decide _

theorem toNat_shiftOutRight (a : Byte) : (shiftOutRight a).toNat = a.toNat % 2 := by
  rw [shiftOutRight, BitVec.toNat_and]
  exact Nat.and_one_is_mod _

theorem toNat_shiftOutLeft (a : Byte) : (shiftOutLeft a).toNat = a.toNat / 128 := by
  have hbit : a.toNat / 128 < 2 := by omega
  rw [shiftOutLeft, BitVec.toNat_and, BitVec.toNat_ushiftRight, Nat.shiftRight_eq_div_pow]
  exact (Nat.and_one_is_mod _).trans (Nat.mod_eq_of_lt hbit)

/-- The wrapped difference of two bytes is the integer difference modulo 256 (00_scope.md R12). -/
theorem toNat_sub_eq_emod (a b : Byte) : ((a - b).toNat : Int) = ((a.toNat : Int) - b.toNat) % 256 := by
  rw [BitVec.toNat_sub]
  omega

theorem toNat_shiftRight_one (a : Byte) : (a >>> 1).toNat = a.toNat / 2 := by
  rw [BitVec.toNat_ushiftRight, Nat.shiftRight_eq_div_pow, Nat.pow_one]

theorem toNat_shiftLeft_one (a : Byte) : (a <<< 1).toNat = a.toNat * 2 % 256 := by
  rw [BitVec.toNat_shiftLeft, Nat.shiftLeft_eq, Nat.pow_one]

/-! ### What a register write and a flag write leave alone -/

section
variable (s : State) (x : Reg)

theorem getV_nextInstr_setV (b : Byte) : (s.setV x b).nextInstr.getV x = b := by
  rw [State.nextInstr_getV, State.getV_setV_same]

/-- Loading Vx and going on changes Vx and pc alone: VF is a register like the others (42_alu.md R120 to R126). -/
theorem frameExcept_setV (b : Byte) : FrameExcept [] [x] s (s.setV x b).nextInstr :=
  ⟨fun _ hr => State.getV_setV_other s b (List.ne_of_not_mem_cons hr), fun p _ => by cases p <;> simp [SamePart]⟩

/-- Writing a result and then the flag changes Vx, VF and pc alone (42_alu.md R122). -/
theorem frameExcept_writeResultThenFlag (res flag : Byte) :
    FrameExcept [] [x, vf] s (writeResultThenFlag s x res flag).nextInstr := by
  refine ⟨fun r hr => ?register, fun p _ => ?part⟩
  case register =>
    obtain ⟨hx, hf⟩ : r ≠ x ∧ r ≠ vf := by simpa using hr
    exact writeResultThenFlag_other s res flag hx hf
  case part => cases p <;> simp [SamePart, writeResultThenFlag]

/-- An instruction that writes its result and then its flag leaves the flag in VF whatever x is, and the result in Vx
where that is another register (42_alu.md R122). The result is read as the number `num` makes of it. -/
theorem exists_next_of_resultThenFlag {r : Result} {res flag : Byte} {f : Nat} {α : Type} {v : α} (num : Byte → α)
    (hr : r = .next (writeResultThenFlag s x res flag).nextInstr) (hflag : flag.toNat = f) (hres : num res = v) :
    ∃ t, r = .next t ∧ (t.getV vf).toNat = f ∧ (x ≠ vf → num (t.getV x) = v) ∧ t.pc = s.pc + 2#16 ∧
      FrameExcept [] [x, vf] s t := by
  refine ⟨_, hr, ?flag, fun hx => ?result, rfl, frameExcept_writeResultThenFlag s x res flag⟩
  case flag => rw [State.nextInstr_getV, writeResultThenFlag_vf, hflag]
  case result => rw [State.nextInstr_getV, writeResultThenFlag_x s res flag hx, hres]

end

/-! ### The statements -/

/-- Settles O35: the flag is written last, and both values come from the registers at entry. -/
theorem addRegSetsTheCarry : Obligations.AddRegSetsTheCarry :=
  ⟨rowDecodesTo_of_group8 rfl fun _ => decodeGroup8_eq_addReg, fun x y s =>
    exists_next_of_resultThenFlag s x BitVec.toNat (exec_addReg x y s) (toNat_carryFlag _ _) (BitVec.toNat_add _ _)⟩

/-- Settles O36: SUBN is SUB with its operands exchanged, and both differences are read as integers. -/
theorem subtractionsSetTheBorrow : Obligations.SubtractionsSetTheBorrow := by
  refine ⟨rowDecodesTo_of_group8 rfl fun _ => decodeGroup8_eq_sub,
    rowDecodesTo_of_group8 rfl fun _ => decodeGroup8_eq_subn, fun x y s => ⟨?sub, ?subn⟩⟩
  case sub =>
    exact exists_next_of_resultThenFlag s x (fun b => (b.toNat : Int)) (exec_sub x y s) (toNat_borrowFlag _ _)
      (toNat_sub_eq_emod _ _)
  case subn =>
    exact exists_next_of_resultThenFlag s x (fun b => (b.toNat : Int)) (exec_subn x y s) (toNat_borrowFlag _ _)
      (toNat_sub_eq_emod _ _)

/-- Settles O37: a shift by one is a division or a multiplication by 2, and Vy does not enter. -/
theorem shiftsSetTheBitShiftedOut : Obligations.ShiftsSetTheBitShiftedOut := by
  refine ⟨rowDecodesTo_of_group8 rfl fun _ => decodeGroup8_eq_shr,
    rowDecodesTo_of_group8 rfl fun _ => decodeGroup8_eq_shl, fun x y s => ⟨?shr, ?shl⟩⟩
  case shr =>
    exact exists_next_of_resultThenFlag s x BitVec.toNat (exec_shr x y s) (toNat_shiftOutRight _)
      (toNat_shiftRight_one _)
  case shl =>
    exact exists_next_of_resultThenFlag s x BitVec.toNat (exec_shl x y s) (toNat_shiftOutLeft _)
      (toNat_shiftLeft_one _)

/-- Settles O31: LD Vx, nn is `setV`. -/
theorem ldImmLoadsTheImmediate : Obligations.LdImmLoadsTheImmediate :=
  ⟨rowDecodesTo_of_group fun _ => decode_of_group6, fun x nn s =>
    ⟨_, exec_ldImm x nn s, getV_nextInstr_setV s x nn, rfl, frameExcept_setV s x nn⟩⟩

/-- Settles O32: ADD Vx, nn is `setV` of the wrapped sum. -/
theorem addImmWrapsAndSetsNoFlag : Obligations.AddImmWrapsAndSetsNoFlag := by
  refine ⟨rowDecodesTo_of_group fun _ => decode_of_group7, fun x nn s =>
    ⟨_, exec_addImm x nn s, ?sum, rfl, frameExcept_setV s x _⟩⟩
  rw [getV_nextInstr_setV, BitVec.toNat_add]

/-- Settles O33: LD Vx, Vy is `setV`. -/
theorem ldRegCopies : Obligations.LdRegCopies :=
  ⟨rowDecodesTo_of_group8 rfl fun _ => decodeGroup8_eq_ldReg, fun x y s =>
    ⟨_, exec_ldReg x y s, getV_nextInstr_setV s x _, rfl, frameExcept_setV s x _⟩⟩

/-- Settles O34: each is `setV` of an operation on bytes, which acts bit by bit. -/
theorem logicIsBitwiseAndSetsNoFlag : Obligations.LogicIsBitwiseAndSetsNoFlag := by
  refine ⟨rowDecodesTo_of_group8 rfl fun _ => decodeGroup8_eq_orReg,
    rowDecodesTo_of_group8 rfl fun _ => decodeGroup8_eq_andReg,
    rowDecodesTo_of_group8 rfl fun _ => decodeGroup8_eq_xorReg, fun x y s =>
    ⟨⟨_, exec_orReg x y s, fun k => ?or, rfl, frameExcept_setV s x _⟩,
      ⟨_, exec_andReg x y s, fun k => ?and, rfl, frameExcept_setV s x _⟩,
      ⟨_, exec_xorReg x y s, fun k => ?xor, rfl, frameExcept_setV s x _⟩⟩⟩
  case or => rw [getV_nextInstr_setV, BitVec.getLsbD_or]
  case and => rw [getV_nextInstr_setV, BitVec.getLsbD_and]
  case xor => rw [getV_nextInstr_setV, BitVec.getLsbD_xor]

end Sys2Proof.Machine
end

section
/-! Proofs of the family 43_index_memory: the rows of the loads of I, the glyph address as a number, the frame of a
write of I, the host's step on an instruction that raises an error, and the two statements on loads of I. -/

namespace Sys2Proof

theorem decode_of_groupA {w : Word} (h : fieldOp w = 0xA#4) : decode w = .ok (.ldI (fieldNNN w)) := by
  simp only [decode, h]

theorem decodeGroupF_eq_ldF {w : Word} (h : fieldNN w = 0x29#8) : decodeGroupF w = .ok (.ldF (fieldX w)) := by
  simp only [decodeGroupF, h]

end Sys2Proof

namespace Sys2Proof.Machine

/-- A row of group 0xF is the part of the group with one low byte (30_encoding.md R88, R90). -/
theorem rowDecodesTo_of_groupF {value : Word} {f : Word → Instr} (hgroup : fieldOp value = 0xF#4)
    (hdec : ∀ w, fieldNN w = fieldNN value → decodeGroupF w = .ok (f w)) : RowDecodesTo value 0xF0FF#16 f :=
  fun w hw => by
    have hop : fieldOp w = fieldOp value := extractLsb'_of_mask hw 12 4 rfl
    have hbyte : fieldNN w = fieldNN value := extractLsb'_of_mask hw 0 8 rfl
    rw [decode_of_groupF (hop.trans hgroup), hdec w hbyte]

/-! ### The meanings of the loads of I -/

theorem exec_ldI (nnn : Addr12) (s : State) : exec (.ldI nnn) s = .next (s.setI (addrOperand nnn)).nextInstr := rfl

theorem exec_ldF (x : Reg) (s : State) :
    exec (.ldF x) s = whenOk (glyphOperand (s.getV x)) fun a => .next (s.setI a).nextInstr := rfl

theorem exec_ldF_of_le {x : Reg} {s : State} (h : (s.getV x).toNat ≤ 0xF) :
    exec (.ldF x) s = .next (s.setI (zext16 (s.getV x) * 5)).nextInstr := by
  rw [exec_ldF, glyphOperand_ok h, whenOk_ok]

theorem exec_ldF_of_gt {x : Reg} {s : State} (h : 0xF < (s.getV x).toNat) :
    exec (.ldF x) s = .fault (.invalidSpriteIndex (s.getV x)) := by
  rw [exec_ldF, glyphOperand_error (Nat.not_le.2 h), whenOk_error]

/-! ### The glyph's address, the frame of a write of I, and the host's step on an error -/

/-- Five times a byte fits in 16 bits without wrap. -/
theorem toNat_zext16_mul_five (v : Byte) : (zext16 v * 5).toNat = v.toNat * 5 := by
  have hv := v.isLt
  rw [BitVec.toNat_mul, BitVec.toNat_setWidth_of_le (by decide)]
  exact Nat.mod_eq_of_lt (show v.toNat * 5 < 2 ^ 16 by omega)

/-- Writing I and going on changes I and pc alone. -/
theorem frameExcept_setI (s : State) (w : Word) : FrameExcept [.index] [] s (s.setI w).nextInstr := by
  refine ⟨fun _ _ => rfl, fun p hp => ?_⟩
  cases p with
  | index => exact absurd (List.mem_singleton_self _) hp
  | memory | callStack | delayTimer | soundTimer | screen | report | stepInputs => simp [SamePart]

/-- An instruction that raises an error ends the host's step with that error and the state before it
(60_exceptions.md R204). -/
theorem hostStep_of_exec_fault {keys : KeyLatch} {raw : Byte} {s : State} {i : Instr} {e : Fault}
    (hfetch : fetchInstr s = .ok i) (hexec : exec i (beginStep (s.withInput keys raw)) = .fault e) :
    hostStep keys raw s = (s, .fault e) :=
  hostStep_of_fault (step_fault_iff.2 (.inr ⟨i, hfetch, hexec⟩))

/-! ### The statements -/

/-- Settles O39: LD I, nnn is `setI` of the zero-extended address. -/
theorem ldISetsTheIndex : Obligations.LdISetsTheIndex :=
  ⟨rowDecodesTo_of_group fun _ => decode_of_groupA, fun nnn s =>
    ⟨_, exec_ldI nnn s, toNat_addrOperand nnn, rfl, frameExcept_setI s _⟩⟩

/-- Settles O41: LD F, Vx is `setI` of the glyph's address, or the error, which the supplied inputs do not change. -/
theorem ldFPointsAtTheGlyph : Obligations.LdFPointsAtTheGlyph := by
  refine ⟨rowDecodesTo_of_groupF rfl fun _ => decodeGroupF_eq_ldF, fun x s =>
    ⟨fun hle => ?glyph, fun hgt => ?error⟩⟩
  case glyph => exact ⟨_, exec_ldF_of_le hle, toNat_zext16_mul_five _, rfl, frameExcept_setI s _⟩
  case error =>
    exact ⟨exec_ldF_of_gt hgt, fun keys raw hfetch =>
      hostStep_of_exec_fault hfetch (exec_ldF_of_gt (s := beginStep (s.withInput keys raw)) hgt)⟩

end Sys2Proof.Machine
end

section
/-! Proofs of the family 44_display: the rows of the opcode map with one word, what a change of the screen leaves alone,
and the statement on clearing it. -/

namespace Sys2Proof.Machine

/-- A row with mask 0xFFFF is a single word (30_encoding.md R84, R90). -/
theorem rowDecodesTo_of_word {value : Word} {f : Word → Instr} (hdec : decode value = .ok (f value)) :
    RowDecodesTo value 0xFFFF#16 f :=
  fun w hw => by
    have hword : w = value := BitVec.and_allOnes.symm.trans hw
    rw [hword, hdec]

theorem exec_cls (s : State) : exec .cls s = .next (s.showFb Framebuffer.clear).nextInstr := rfl

/-- Showing a framebuffer and going on changes the screen, the report and pc alone. -/
theorem frameExcept_showFb (s : State) (fb : Framebuffer) :
    FrameExcept [.screen, .report] [] s (s.showFb fb).nextInstr := by
  refine ⟨fun _ _ => rfl, fun p hp => ?_⟩
  cases p with
  | screen | report => exact absurd (by simp) hp
  | memory | index | callStack | delayTimer | soundTimer | stepInputs => simp [SamePart]

/-- Settles O47: CLS shows the framebuffer whose pixels are all 0. -/
theorem clsClearsTheScreen : Obligations.ClsClearsTheScreen :=
  ⟨rowDecodesTo_of_word rfl, fun s =>
    ⟨_, exec_cls s, Framebuffer.pixel_clear, rfl, rfl, rfl, frameExcept_showFb s _⟩⟩

end Sys2Proof.Machine
end

section
/-! Proofs of the family 45_keys_timers: the rows of LD Vx, DT and LD Vx, K, what each leaves, what a step that executes
to its own beginning leaves alone, and the two statements. -/

namespace Sys2Proof

theorem decodeGroupF_eq_ldVxDt {w : Word} (h : fieldNN w = 0x07#8) : decodeGroupF w = .ok (.ldVxDt (fieldX w)) := by
  simp only [decodeGroupF, h]

theorem decodeGroupF_eq_ldVxK {w : Word} (h : fieldNN w = 0x0A#8) : decodeGroupF w = .ok (.ldVxK (fieldX w)) := by
  simp only [decodeGroupF, h]

end Sys2Proof

namespace Sys2Proof.Machine

/-! ### The meanings of the two loads -/

theorem exec_ldVxDt (x : Reg) (s : State) : exec (.ldVxDt x) s = .next (s.setV x s.dt).nextInstr := rfl

theorem exec_ldVxK (x : Reg) (s : State) : exec (.ldVxK x) s = .next (keyWaitState x s) := rfl

/-- With some key pressed, LD Vx, K loads the lowest one (45_keys_timers.md R173). -/
theorem exec_ldVxK_of_lowest (x : Reg) {s : State} {k : Fin 16} (hk : s.keys[k.val] = true)
    (hlow : ∀ j : Fin 16, j < k → s.keys[j.val] = false) :
    exec (.ldVxK x) s = .next (s.setV x (BitVec.ofNat 8 k.val)).nextInstr := by
  have hlowest : lowestKey s.keys = some k.val :=
    lowestKey_eq_some_iff.2 ⟨k.isLt, hk, fun j hj => hlow ⟨j, hj.trans k.isLt⟩ hj⟩
  simp only [exec_ldVxK, keyWaitState, hlowest]

/-- With no key pressed, LD Vx, K leaves the state as it is (45_keys_timers.md R173). -/
theorem exec_ldVxK_of_no_key (x : Reg) {s : State} (h : ∀ k : Fin 16, s.keys[k.val] = false) :
    exec (.ldVxK x) s = .next s := by
  have hlowest : lowestKey s.keys = none := lowestKey_eq_none_iff.2 fun k hk => h ⟨k, hk⟩
  simp only [exec_ldVxK, keyWaitState, hlowest]

/-! ### A step around its instruction -/

/-- A step whose instruction completes ends with the timer update (30_encoding.md R92). -/
theorem step_of_exec_next {s u : State} {i : Instr} (hfetch : fetchInstr s = .ok i)
    (hexec : exec i (beginStep s) = .next u) : step s = .next (endStep u) :=
  step_next_iff.2 ⟨i, u, hfetch, hexec, rfl⟩

/-- What stands around the instruction in a step changes the timers, the report and the inputs alone. -/
theorem frameExcept_endStep_beginStep (s : State) :
    FrameExcept [.delayTimer, .soundTimer, .report, .stepInputs] [] s (endStep (beginStep s)) := by
  refine ⟨fun _ _ => rfl, fun p hp => ?_⟩
  cases p with
  | delayTimer | soundTimer | report | stepInputs => exact absurd (by simp) hp
  | memory | index | callStack | screen => simp [SamePart]

/-! ### The statements -/

/-- Settles O52: LD Vx, K is `setV` of the lowest key, or leaves the state, and the step around it only ticks. -/
theorem ldVxKTakesTheLowestKeyOrWaits : Obligations.LdVxKTakesTheLowestKeyOrWaits := by
  refine ⟨rowDecodesTo_of_groupF rfl fun _ => decodeGroupF_eq_ldVxK, fun x s =>
    ⟨fun k hk hlow => ⟨_, exec_ldVxK_of_lowest x hk hlow, ?key, rfl, frameExcept_setV s x _⟩,
      fun hnone => ⟨exec_ldVxK_of_no_key x hnone, fun hfetch => ?wait⟩⟩⟩
  case key =>
    rw [getV_nextInstr_setV, BitVec.toNat_ofNat]
    exact Nat.mod_eq_of_lt (k.isLt.trans (by decide))
  case wait =>
    have hexec : exec (.ldVxK x) (beginStep s) = .next (beginStep s) := exec_ldVxK_of_no_key x hnone
    exact ⟨_, step_of_exec_next hfetch hexec, rfl, frameExcept_endStep_beginStep s, toNat_tick s.dt, toNat_tick s.st,
      rfl, (fetchInstr_congr rfl rfl).trans hfetch⟩

/-- Settles O51: LD Vx, DT is `setV` of the delay timer, and the timer update comes after it. -/
theorem ldVxDtReadsTheDelayTimer : Obligations.LdVxDtReadsTheDelayTimer := by
  refine ⟨rowDecodesTo_of_groupF rfl fun _ => decodeGroupF_eq_ldVxDt, fun x s =>
    ⟨⟨_, exec_ldVxDt x s, getV_nextInstr_setV s x _, rfl, frameExcept_setV s x _⟩, fun hfetch =>
      ⟨_, step_of_exec_next hfetch (exec_ldVxDt x _), ?old, toNat_tick s.dt, rfl⟩⟩⟩
  rw [endStep_getV, getV_nextInstr_setV, beginStep_dt]

end Sys2Proof.Machine
end

section
/-! Proofs of the family 60_exceptions: what the end of a step leaves alone, and the statement on the timer update. -/

namespace Sys2Proof.Machine

/-- The end of a step changes the timers, the report and the inputs alone (60_exceptions.md R215). -/
theorem frameExcept_endStep (u : State) :
    FrameExcept [.delayTimer, .soundTimer, .report, .stepInputs] [] u (endStep u) := by
  refine ⟨fun r _ => endStep_getV u r, fun p hp => ?_⟩
  cases p with
  | delayTimer | soundTimer | report | stepInputs => exact absurd (by simp) hp
  | memory | index | callStack | screen => simp [SamePart]

/-- Settles O16: a step that completes ends with `endStep` of the state its instruction leaves. -/
theorem timersTickAtTheEndOfEveryStep : Obligations.TimersTickAtTheEndOfEveryStep := by
  intro s t hstep
  obtain ⟨i, u, hfetch, hexec, rfl⟩ := step_next_iff.1 hstep
  have hchanged : (endStep u).report.framebufferChanged = u.report.framebufferChanged := by rw [endStep_report]
  exact ⟨i, u, hfetch, hexec, toNat_tick u.dt, toNat_tick u.st, endStep_beepEdge_iff u, hchanged,
    frameExcept_endStep u, endStep_pc u⟩

end Sys2Proof.Machine
end

section
/-! Proofs of the family other, the decoder: encode and decode are inverse to each other, format by format, every row of
the opcode map decodes to its instruction, and the words of 30_encoding.md section 3. -/

namespace Sys2Proof

/-! ### The other groups with one instruction, and the other function bytes -/

theorem decode_of_group2 {w : Word} (h : fieldOp w = 0x2#4) : decode w = .ok (.call (fieldNNN w)) := by
  simp only [decode, h]

theorem decode_of_groupC {w : Word} (h : fieldOp w = 0xC#4) : decode w = .ok (.rnd (fieldX w) (fieldNN w)) := by
  simp only [decode, h]

theorem decode_of_groupD {w : Word} (h : fieldOp w = 0xD#4) :
    decode w = .ok (.drw (fieldX w) (fieldY w) (fieldN w).toNat) := by
  simp only [decode, h]

section
variable {w : Word}

theorem decodeGroupE_eq_skp (h : fieldNN w = 0x9E#8) : decodeGroupE w = .ok (.skp (fieldX w)) := by
  simp only [decodeGroupE, h]

theorem decodeGroupE_eq_sknp (h : fieldNN w = 0xA1#8) : decodeGroupE w = .ok (.sknp (fieldX w)) := by
  simp only [decodeGroupE, h]

theorem decodeGroupF_eq_ldDtVx (h : fieldNN w = 0x15#8) : decodeGroupF w = .ok (.ldDtVx (fieldX w)) := by
  simp only [decodeGroupF, h]

theorem decodeGroupF_eq_ldStVx (h : fieldNN w = 0x18#8) : decodeGroupF w = .ok (.ldStVx (fieldX w)) := by
  simp only [decodeGroupF, h]

theorem decodeGroupF_eq_addI (h : fieldNN w = 0x1E#8) : decodeGroupF w = .ok (.addI (fieldX w)) := by
  simp only [decodeGroupF, h]

theorem decodeGroupF_eq_ldB (h : fieldNN w = 0x33#8) : decodeGroupF w = .ok (.ldB (fieldX w)) := by
  simp only [decodeGroupF, h]

theorem decodeGroupF_eq_ldStore (h : fieldNN w = 0x55#8) : decodeGroupF w = .ok (.ldStore (fieldX w)) := by
  simp only [decodeGroupF, h]

theorem decodeGroupF_eq_ldLoad (h : fieldNN w = 0x65#8) : decodeGroupF w = .ok (.ldLoad (fieldX w)) := by
  simp only [decodeGroupF, h]

end

/-! ### Decode after encode -/

/-- The decoder reads the word of a well-formed instruction as that instruction: its fields are the operands the
encoder laid out, format by format (30_encoding.md R81). -/
theorem decode_encode {i : Instr} (hwf : WellFormed i = true) : decode (encode i) = .ok i := by
  cases i with
  | cls | ret => rfl
  | jp | call | ldI | jpV0 => simp [encode, decode]
  | seImm | sneImm | ldImm | addImm | rnd => simp [encode, decode]
  | seReg | sneReg => simp [encode, decode, decodeRegSkip]
  | ldReg | orReg | andReg | xorReg | addReg | sub | shr | subn | shl => simp [encode, decode, decodeGroup8]
  | drw x y n =>
    have hn : n < 16 := Nat.lt_succ_of_le (of_decide_eq_true hwf)
    simpa [encode, decode] using hn
  | skp | sknp => simp [encode, decode, decodeGroupE]
  | ldVxDt | ldVxK | ldDtVx | ldStVx | addI | ldF | ldB | ldStore | ldLoad => simp [encode, decode, decodeGroupF]

/-- The bytes of a word, followed by any others, decode as the word does. -/
theorem decodeBytes_of_decode {w : Word} {i : Instr} (h : decode w = .ok i) (rest : List Byte) :
    decodeBytes (highByte w :: lowByte w :: rest) = .ok (i, rest) := by
  simp only [decodeBytes, wordOfBytes_highByte_lowByte, h]

/-- Settles O2: format by format, the fields of the encoded word are the operands. -/
theorem decodeOfEncodeIsTheInstruction : Obligations.DecodeOfEncodeIsTheInstruction :=
  fun _ hwf => ⟨decode_encode hwf, decodeBytes_of_decode (decode_encode hwf)⟩

/-! ### Encode after decode -/

/-- The word of an instruction is `w`, and every operand fits its field. -/
def IsWordOf (i : Instr) (w : Word) : Prop := encode i = w ∧ WellFormed i = true

theorem isWordOf_of_decodeGroup0 {w : Word} {i : Instr} (h : decodeGroup0 w = .ok i) : IsWordOf i w := by
  unfold decodeGroup0 at h
  split at h <;> cases h <;> exact ⟨rfl, rfl⟩

theorem isWordOf_of_decodeRegSkip {w : Word} {i : Instr} {op : BitVec 4} {mk : Reg → Reg → Instr}
    (hmk : ∀ x y, IsWordOf (mk x y) (formatXYN op x y 0x0#4)) (hop : fieldOp w = op)
    (h : decodeRegSkip mk w = .ok i) : IsWordOf i w := by
  have hw := formatXYN_fields w
  unfold decodeRegSkip at h
  split at h
  case h_1 hn =>
    cases h
    rw [hop, hn] at hw
    have := hmk (fieldX w) (fieldY w)
    rwa [hw] at this
  case h_2 => cases h

theorem isWordOf_of_decodeGroup8 {w : Word} {i : Instr} (hop : fieldOp w = 0x8#4) (h : decodeGroup8 w = .ok i) :
    IsWordOf i w := by
  have hw := formatXYN_fields w
  unfold decodeGroup8 at h
  split at h
  case h_10 => cases h
  all_goals
    next hn =>
    cases h
    rw [hop, hn] at hw
    exact ⟨hw, rfl⟩

theorem isWordOf_of_decodeGroupE {w : Word} {i : Instr} (hop : fieldOp w = 0xE#4) (h : decodeGroupE w = .ok i) :
    IsWordOf i w := by
  have hw := formatXNN_fields w
  unfold decodeGroupE at h
  split at h
  case h_3 => cases h
  all_goals
    next hn =>
    cases h
    rw [hop, hn] at hw
    exact ⟨hw, rfl⟩

theorem isWordOf_of_decodeGroupF {w : Word} {i : Instr} (hop : fieldOp w = 0xF#4) (h : decodeGroupF w = .ok i) :
    IsWordOf i w := by
  have hw := formatXNN_fields w
  unfold decodeGroupF at h
  split at h
  case h_10 => cases h
  all_goals
    next hn =>
    cases h
    rw [hop, hn] at hw
    exact ⟨hw, rfl⟩

/-- A word that decodes is the word of its instruction: a format loses no bit of its fields, and the discriminant of
the group is the one the encoder writes. -/
theorem isWordOf_of_decode {w : Word} {i : Instr} (h : decode w = .ok i) : IsWordOf i w := by
  have hnnn := formatNNN_fields w
  have hxnn := formatXNN_fields w
  have hxyn := formatXYN_fields w
  unfold decode at h
  split at h
  case h_1 => exact isWordOf_of_decodeGroup0 h
  case h_6 hop => exact isWordOf_of_decodeRegSkip (fun _ _ => ⟨rfl, rfl⟩) hop h
  case h_9 hop => exact isWordOf_of_decodeGroup8 hop h
  case h_10 hop => exact isWordOf_of_decodeRegSkip (fun _ _ => ⟨rfl, rfl⟩) hop h
  case h_15 hop => exact isWordOf_of_decodeGroupE hop h
  case h_16 hop => exact isWordOf_of_decodeGroupF hop h
  case h_17 => cases h
  case h_14 hop =>
    cases h
    rw [hop] at hxyn
    refine ⟨?word, decide_eq_true (Nat.le_of_lt_succ (fieldN w).isLt)⟩
    rwa [encode, BitVec.ofNat_toNat, BitVec.setWidth_eq]
  case h_2 hop | h_3 hop | h_11 hop | h_12 hop =>
    cases h
    rw [hop] at hnnn
    exact ⟨hnnn, rfl⟩
  case h_4 hop | h_5 hop | h_7 hop | h_8 hop | h_13 hop =>
    cases h
    rw [hop] at hxnn
    exact ⟨hxnn, rfl⟩

/-- Settles O3: each format is rebuilt from its fields. -/
theorem encodeOfDecodeIsTheWord : Obligations.EncodeOfDecodeIsTheWord :=
  fun _ _ h => isWordOf_of_decode h

/-! ### Rows of the opcode map -/

/-- Every instruction's word lies in its row (30_encoding.md R90). -/
theorem tableRow (i : Instr) : Laws.TableRow.Statement i := by
  cases i with
  | cls | ret => rfl
  | jp | call | ldI | jpV0 => exact formatNNN_mask _ _
  | seImm | sneImm | ldImm | addImm | rnd => exact formatXNN_mask_group _ _ _
  | seReg | sneReg | ldReg | orReg | andReg | xorReg | addReg | sub | shr | subn | shl =>
    exact formatXYN_mask_function _ _ _ _
  | drw => exact formatXYN_mask_group _ _ _ _
  | skp | sknp | ldVxDt | ldVxK | ldDtVx | ldStVx | addI | ldF | ldB | ldStore | ldLoad =>
    exact formatXNN_mask_function _ _ _

end Sys2Proof

namespace Sys2Proof.Machine

/-- A row of group 0xE is the part of the group with one low byte (30_encoding.md R87, R90). -/
theorem rowDecodesTo_of_groupE {value : Word} {f : Word → Instr} (hgroup : fieldOp value = 0xE#4)
    (hdec : ∀ w, fieldNN w = fieldNN value → decodeGroupE w = .ok (f w)) : RowDecodesTo value 0xF0FF#16 f :=
  fun w hw => by
    have hop : fieldOp w = fieldOp value := extractLsb'_of_mask hw 12 4 rfl
    have hbyte : fieldNN w = fieldNN value := extractLsb'_of_mask hw 0 8 rfl
    rw [decode_of_groupE (hop.trans hgroup), hdec w hbyte]

/-- Every word of the row of `j` decodes to an instruction of that row. -/
def DecodesToRowOf (j : Instr) : Prop := ∃ f, RowDecodesTo j.row.value j.row.mask f ∧ ∀ w, (f w).row = j.row

theorem decodesToRowOf_of {j : Instr} {value mask : Word} {f : Word → Instr} (hbits : j.row = ⟨value, mask⟩)
    (hf : RowDecodesTo value mask f) (hrow : ∀ w, (f w).row = j.row := by intro _; rfl) : DecodesToRowOf j :=
  ⟨f, by rwa [hbits], hrow⟩

/-- Row by row: the fixed bits fix the group and the discriminant, and these fix the instruction. -/
theorem decodesToRowOf (j : Instr) : DecodesToRowOf j := by
  cases j with
  | cls => exact decodesToRowOf_of rfl (rowDecodesTo_of_word rfl)
  | ret => exact decodesToRowOf_of rfl (rowDecodesTo_of_word rfl)
  | jp => exact decodesToRowOf_of rfl (rowDecodesTo_of_group fun _ => decode_of_group1)
  | call => exact decodesToRowOf_of rfl (rowDecodesTo_of_group fun _ => decode_of_group2)
  | seImm => exact decodesToRowOf_of rfl (rowDecodesTo_of_group fun _ => decode_of_group3)
  | sneImm => exact decodesToRowOf_of rfl (rowDecodesTo_of_group fun _ => decode_of_group4)
  | seReg => exact decodesToRowOf_of rfl (rowDecodesTo_of_regSkip rfl fun _ => decode_of_group5)
  | ldImm => exact decodesToRowOf_of rfl (rowDecodesTo_of_group fun _ => decode_of_group6)
  | addImm => exact decodesToRowOf_of rfl (rowDecodesTo_of_group fun _ => decode_of_group7)
  | ldReg => exact decodesToRowOf_of rfl (rowDecodesTo_of_group8 rfl fun _ => decodeGroup8_eq_ldReg)
  | orReg => exact decodesToRowOf_of rfl (rowDecodesTo_of_group8 rfl fun _ => decodeGroup8_eq_orReg)
  | andReg => exact decodesToRowOf_of rfl (rowDecodesTo_of_group8 rfl fun _ => decodeGroup8_eq_andReg)
  | xorReg => exact decodesToRowOf_of rfl (rowDecodesTo_of_group8 rfl fun _ => decodeGroup8_eq_xorReg)
  | addReg => exact decodesToRowOf_of rfl (rowDecodesTo_of_group8 rfl fun _ => decodeGroup8_eq_addReg)
  | sub => exact decodesToRowOf_of rfl (rowDecodesTo_of_group8 rfl fun _ => decodeGroup8_eq_sub)
  | shr => exact decodesToRowOf_of rfl (rowDecodesTo_of_group8 rfl fun _ => decodeGroup8_eq_shr)
  | subn => exact decodesToRowOf_of rfl (rowDecodesTo_of_group8 rfl fun _ => decodeGroup8_eq_subn)
  | shl => exact decodesToRowOf_of rfl (rowDecodesTo_of_group8 rfl fun _ => decodeGroup8_eq_shl)
  | sneReg => exact decodesToRowOf_of rfl (rowDecodesTo_of_regSkip rfl fun _ => decode_of_group9)
  | ldI => exact decodesToRowOf_of rfl (rowDecodesTo_of_group fun _ => decode_of_groupA)
  | jpV0 => exact decodesToRowOf_of rfl (rowDecodesTo_of_group fun _ => decode_of_groupB)
  | rnd => exact decodesToRowOf_of rfl (rowDecodesTo_of_group fun _ => decode_of_groupC)
  | drw => exact decodesToRowOf_of rfl (rowDecodesTo_of_group fun _ => decode_of_groupD)
  | skp => exact decodesToRowOf_of rfl (rowDecodesTo_of_groupE rfl fun _ => decodeGroupE_eq_skp)
  | sknp => exact decodesToRowOf_of rfl (rowDecodesTo_of_groupE rfl fun _ => decodeGroupE_eq_sknp)
  | ldVxDt => exact decodesToRowOf_of rfl (rowDecodesTo_of_groupF rfl fun _ => decodeGroupF_eq_ldVxDt)
  | ldVxK => exact decodesToRowOf_of rfl (rowDecodesTo_of_groupF rfl fun _ => decodeGroupF_eq_ldVxK)
  | ldDtVx => exact decodesToRowOf_of rfl (rowDecodesTo_of_groupF rfl fun _ => decodeGroupF_eq_ldDtVx)
  | ldStVx => exact decodesToRowOf_of rfl (rowDecodesTo_of_groupF rfl fun _ => decodeGroupF_eq_ldStVx)
  | addI => exact decodesToRowOf_of rfl (rowDecodesTo_of_groupF rfl fun _ => decodeGroupF_eq_addI)
  | ldF => exact decodesToRowOf_of rfl (rowDecodesTo_of_groupF rfl fun _ => decodeGroupF_eq_ldF)
  | ldB => exact decodesToRowOf_of rfl (rowDecodesTo_of_groupF rfl fun _ => decodeGroupF_eq_ldB)
  | ldStore => exact decodesToRowOf_of rfl (rowDecodesTo_of_groupF rfl fun _ => decodeGroupF_eq_ldStore)
  | ldLoad => exact decodesToRowOf_of rfl (rowDecodesTo_of_groupF rfl fun _ => decodeGroupF_eq_ldLoad)

/-- A word that decodes is of the row of its instruction. -/
theorem row_of_decode {w : Word} {i : Instr} (h : decode w = .ok i) : w &&& i.row.mask = i.row.value := by
  obtain ⟨hw, -⟩ := isWordOf_of_decode h
  have hrow : encode i &&& i.row.mask = i.row.value := tableRow i
  rwa [hw] at hrow

/-- A word of a row decodes, to an instruction of that row. -/
theorem decode_of_row {w : Word} {j : Instr} (h : w &&& j.row.mask = j.row.value) :
    ∃ i, decode w = .ok i ∧ i.row = j.row := by
  obtain ⟨f, hf, hrow⟩ := decodesToRowOf j
  exact ⟨f w, hf w h, hrow w⟩

/-- Settles O4: the encoder's words lie in their rows, and a row's fixed bits fix the decoder's branch. -/
theorem rowMatchDecidesTheInstruction : Obligations.RowMatchDecidesTheInstruction :=
  ⟨fun _ _ => row_of_decode, fun _ _ => decode_of_row⟩

/-- A word of no row is rejected with the whole word (30_encoding.md R89). -/
theorem decode_error_iff {w : Word} :
    (∃ e, decode w = .error e) ↔ ∀ j : Instr, w &&& j.row.mask ≠ j.row.value := by
  constructor
  · rintro ⟨e, he⟩ j hrow
    obtain ⟨i, hi, -⟩ := decode_of_row hrow
    cases he.symm.trans hi
  · intro hno
    cases hdec : decode w with
    | ok i => exact absurd (row_of_decode hdec) (hno i)
    | error e => exact ⟨e, rfl⟩

/-! ### A word placed where the next step fetches -/

/-- All 16 bits of a word are part of the table word (20_memory.md R64). -/
theorem tableWord_toNat (w : Word) : tableWord 16 w.toNat = w := by
  rw [tableWord, Nat.mod_eq_of_lt w.isLt, BitVec.ofNat_toNat, BitVec.setWidth_eq]

theorem decodeTableWord_toNat {w : Word} {i : Instr} (h : decode w = .ok i) :
    decodeTableWord 16 w.toNat = some i := by
  simp only [decodeTableWord, tableWord_toNat, decodeBytes_of_decode h]

/-- Settles O1: each word is of a row with its operands in the row's fields. -/
theorem specWordsDecode : Obligations.SpecWordsDecode :=
  ⟨rfl, rfl, rfl, rfl, rfl, rfl, rfl, rfl, rfl⟩

end Sys2Proof.Machine
end

section
/-! Proofs of the family other, whole-machine rules: the shapes in which an instruction leaves the state, and from them
its frame, the invariant, the bound on pc and the timers. -/

namespace Sys2Proof.Machine

/-! ### What the other updates leave alone -/

/-- A change of pc is in no frame. -/
theorem FrameExcept.setPc {ps : List Part} {rs : List Reg} {s t : State} (h : FrameExcept ps rs s t) (target : Word) :
    FrameExcept ps rs s (t.setPc target) := by
  obtain ⟨hregs, hparts⟩ := h
  exact ⟨hregs, fun p hp => by cases p <;> exact hparts _ hp⟩

theorem FrameExcept.nextInstr {ps : List Part} {rs : List Reg} {s t : State} (h : FrameExcept ps rs s t) :
    FrameExcept ps rs s t.nextInstr :=
  h.setPc _

/-- A frame lets change what a smaller one does. -/
theorem FrameExcept.mono {ps ps' : List Part} {rs rs' : List Reg} {s t : State} (h : FrameExcept ps rs s t)
    (hps : ps ⊆ ps') (hrs : rs ⊆ rs') : FrameExcept ps' rs' s t := by
  obtain ⟨hregs, hparts⟩ := h
  exact ⟨fun r hr => hregs r fun hmem => hr (hrs hmem), fun p hp => hparts p fun hmem => hp (hps hmem)⟩

theorem frameExcept_refl (s : State) : FrameExcept [] [] s s := frameExcept_setPc s s.pc

section
variable (s : State)

theorem frameExcept_mem (m : Memory) : FrameExcept [.memory] [] s { s with mem := m } :=
  ⟨fun _ _ => rfl, fun p hp => by cases p <;> simp_all [SamePart]⟩

theorem frameExcept_callStack (stack : Vector Word 16) (sp : Fin 17) :
    FrameExcept [.callStack] [] s { s with stack := stack, sp := sp } :=
  ⟨fun _ _ => rfl, fun p hp => by cases p <;> simp_all [SamePart]⟩

theorem frameExcept_dt (b : Byte) : FrameExcept [.delayTimer] [] s { s with dt := b } :=
  ⟨fun _ _ => rfl, fun p hp => by cases p <;> simp_all [SamePart]⟩

theorem frameExcept_st (b : Byte) : FrameExcept [.soundTimer] [] s { s with st := b } :=
  ⟨fun _ _ => rfl, fun p hp => by cases p <;> simp_all [SamePart]⟩

theorem frameExcept_inputs (inputs : List HostInput) :
    FrameExcept [.stepInputs] [] s { s with inputs := inputs } :=
  ⟨fun _ _ => rfl, fun p hp => by cases p <;> simp_all [SamePart]⟩

/-- Drawing changes the screen, the report and VF alone (44_display.md R162, R163). -/
theorem frameExcept_draw (fb : Framebuffer) (flag : Byte) :
    FrameExcept [.screen, .report] [vf] s ((s.showFb fb).setV vf flag) :=
  ⟨fun _ hr => State.getV_setV_other _ flag (List.ne_of_not_mem_cons hr),
    fun p hp => by cases p <;> simp_all [SamePart]⟩

/-- A register in a run loaded from V0 up holds its byte (43_index_memory.md R145). -/
theorem getV_loadRegs_inside {r : Reg} {bs : List Byte} (h : r.val < bs.length) :
    State.getV { s with v := loadRegsFrom s.v 0 bs } r = bs[r.val] := by
  simp [State.getV, getElem_loadRegsFrom, h]

/-- A register above the run keeps its value. -/
theorem getV_loadRegs_above {r : Reg} {bs : List Byte} (h : bs.length ≤ r.val) :
    State.getV { s with v := loadRegsFrom s.v 0 bs } r = s.getV r := by
  simp [State.getV, getElem_loadRegsFrom, Nat.not_lt.2 h]

/-- A load that passes its check answers the whole run. -/
theorem loadBytes_ok_iff {s : State} {a : Word} {n : Nat} {bs : List Byte} :
    loadBytes s a n = .ok bs ↔ inRange a n = true ∧ bs = s.mem.readBytes a.toNat n := by
  rw [loadBytes_eq]
  cases inRange a n <;> simp [eq_comm]

/-- Loading V0 to Vx changes these registers alone. -/
theorem frameExcept_loadRegs {x : Reg} {bs : List Byte} (hlen : bs.length = x.val + 1) :
    FrameExcept [] ((List.finRange 16).filter (· ≤ x)) s { s with v := loadRegsFrom s.v 0 bs } := by
  refine ⟨fun r hr => getV_loadRegs_above s ?above, fun p _ => by cases p <;> simp [SamePart]⟩
  have hx : x < r := Nat.lt_of_not_le fun hle => hr (by simpa using hle)
  exact hlen.trans_le hx

end

theorem sameBytesOutside_of_mem_eq {s t : State} (h : t.mem = s.mem) (lo n : Nat) : SameBytesOutside lo n s t :=
  fun a _ => by rw [h]

theorem sameBytesOutside_writeBytes (s : State) (lo : Nat) (bs : List Byte) :
    SameBytesOutside lo bs.length s { s with mem := s.mem.writeBytes lo bs } :=
  fun a ha => Memory.read_writeBytes_outside bs s.mem lo a ha

/-! ### What an instruction can do -/

/-- The states an instruction can leave `s` in: one shape per way the 34 instructions write the state, each with what
the tables of 10_state.md and 20_memory.md say of the instructions that write so. -/
inductive Leaves (i : Instr) (s : State) : State → Prop
  /-- Fx0A while no key is pressed. -/
  | wait : Leaves i s s
  /-- JP and JP V0. -/
  | jump {target : Word} (htarget : target.toNat ≤ 0x10FE) : Leaves i s (s.setPc target)
  /-- The six skips. -/
  | skip {c : Bool} : Leaves i s (s.skipIf c)
  /-- CALL. -/
  | call {nnn : Addr12} (hpart : .callStack ∈ writtenParts i) (hsp : s.sp.val < 16) :
    Leaves i s (State.setPc { s with
      stack := s.stack.set s.sp.val (s.pc + 2) hsp, sp := ⟨s.sp.val + 1, Nat.succ_lt_succ hsp⟩ } (addrOperand nnn))
  /-- RET. -/
  | ret (hpart : .callStack ∈ writtenParts i) (hsp : 0 < s.sp.val) :
    Leaves i s (State.setPc { s with sp := ⟨s.sp.val - 1, by omega⟩ } (s.stack[s.sp.val - 1]'(by omega)))
  /-- The loads of one register, ADD Vx, nn, the logic and RND. -/
  | reg {x : Reg} {b : Byte} (hreg : x ∈ writtenRegs i) : Leaves i s (s.setV x b).nextInstr
  /-- The ALU instructions that write VF. -/
  | flag {x : Reg} {res flag : Byte} (hreg : x ∈ writtenRegs i) (hvf : vf ∈ writtenRegs i) :
    Leaves i s (writeResultThenFlag s x res flag).nextInstr
  /-- LD Vx, [I]. -/
  | loadRegs {x : Reg} {bs : List Byte} (hlen : bs.length = x.val + 1)
    (hregs : (List.finRange 16).filter (· ≤ x) ⊆ writtenRegs i) :
    Leaves i s (State.nextInstr { s with v := loadRegsFrom s.v 0 bs })
  /-- The loads and the addition to I. -/
  | index {w : Word} (hpart : .index ∈ writtenParts i) : Leaves i s (s.setI w).nextInstr
  /-- LD B and LD [I], Vx. -/
  | store {bs : List Byte} (hpart : .memory ∈ writtenParts i) (hlen : bs.length = touchedBytes i)
    (hrange : inRange s.i bs.length = true) :
    Leaves i s (State.nextInstr { s with mem := s.mem.writeBytes s.i.toNat bs })
  /-- LD DT, Vx. -/
  | delay {b : Byte} (hpart : .delayTimer ∈ writtenParts i) : Leaves i s (State.nextInstr { s with dt := b })
  /-- LD ST, Vx. -/
  | sound {b : Byte} (hpart : .soundTimer ∈ writtenParts i) : Leaves i s (State.nextInstr { s with st := b })
  /-- CLS. -/
  | screen {fb : Framebuffer} (hparts : [.screen, .report] ⊆ writtenParts i) : Leaves i s (s.showFb fb).nextInstr
  /-- DRW. -/
  | draw {fb : Framebuffer} {flag : Byte} (hparts : [.screen, .report] ⊆ writtenParts i)
    (hvf : vf ∈ writtenRegs i) : Leaves i s ((s.showFb fb).setV vf flag).nextInstr

theorem leaves_keyWaitState (x : Reg) (s : State) : Leaves (.ldVxK x) s (keyWaitState x s) := by
  unfold keyWaitState
  split
  · exact .reg (List.mem_singleton_self x)
  · exact .wait

/-- An instruction that answers next leaves one of these states. -/
theorem leaves_of_exec {i : Instr} {s t : State} (h : exec i s = .next t) : Leaves i s t := by
  cases i with
  | cls =>
    cases h
    exact .screen (List.Subset.refl _)
  | ret =>
    obtain ⟨p, hp, hu⟩ := whenOk_next_iff.1 h
    obtain ⟨hsp, rfl⟩ := pop_ok_iff.1 hp
    cases hu
    exact .ret (List.mem_singleton_self _) hsp
  | call nnn =>
    obtain ⟨u, hu, ht⟩ := whenOk_next_iff.1 h
    obtain ⟨hsp, rfl⟩ := push_ok_iff.1 hu
    cases ht
    exact .call (List.mem_singleton_self _) hsp
  | jp nnn =>
    cases h
    have := nnn.isLt
    exact .jump (by rw [toNat_addrOperand]; omega)
  | jpV0 nnn =>
    cases h
    have hv := (s.getV v0).isLt
    have hn := nnn.isLt
    exact .jump (by rw [toNat_indexedTarget]; omega)
  | seImm | sneImm | seReg | sneReg =>
    cases h
    exact .skip
  | skp | sknp =>
    obtain ⟨k, -, ht⟩ := whenOk_next_iff.1 h
    cases ht
    exact .skip
  | ldImm | addImm | ldReg | orReg | andReg | xorReg | rnd | ldVxDt =>
    cases h
    exact .reg (List.mem_singleton_self _)
  | addReg | sub | shr | subn | shl =>
    cases h
    exact .flag (by simp [writtenRegs]) (by simp [writtenRegs])
  | ldVxK x =>
    cases h
    exact leaves_keyWaitState x s
  | ldI | addI =>
    cases h
    exact .index (List.mem_singleton_self _)
  | ldF =>
    obtain ⟨a, -, ht⟩ := whenOk_next_iff.1 h
    cases ht
    exact .index (List.mem_singleton_self _)
  | ldB | ldStore =>
    obtain ⟨u, hu, ht⟩ := whenOk_next_iff.1 h
    obtain ⟨hrange, rfl⟩ := storeBytes_ok_iff.1 hu
    cases ht
    exact .store (List.mem_singleton_self _) (by simp [bcdDigits, touchedBytes]) hrange
  | ldLoad x =>
    obtain ⟨bs, hbs, ht⟩ := whenOk_next_iff.1 h
    cases ht
    obtain ⟨-, rfl⟩ := loadBytes_ok_iff.1 hbs
    exact .loadRegs (Memory.length_readBytes _ _ _) (List.Subset.refl _)
  | ldDtVx =>
    cases h
    exact .delay (List.mem_singleton_self _)
  | ldStVx =>
    cases h
    exact .sound (List.mem_singleton_self _)
  | drw =>
    obtain ⟨rows, -, ht⟩ := whenOk_next_iff.1 h
    cases ht
    exact .draw (List.Subset.refl _) (List.mem_singleton_self _)

/-! ### The frame of every instruction -/

/-- What an instruction leaves unchanged beside memory at I. -/
theorem Leaves.frame {i : Instr} {s t : State} (h : Leaves i s t) :
    FrameExcept (writtenParts i) (writtenRegs i) s t := by
  cases h with
  | wait => exact (frameExcept_refl s).mono (List.nil_subset _) (List.nil_subset _)
  | jump | skip => exact (frameExcept_setPc s _).mono (List.nil_subset _) (List.nil_subset _)
  | call hpart | ret hpart =>
    exact ((frameExcept_callStack s _ _).setPc _).mono (by simpa using hpart) (List.nil_subset _)
  | reg hreg => exact (frameExcept_setV s _ _).mono (List.nil_subset _) (by simpa using hreg)
  | flag hreg hvf =>
    exact (frameExcept_writeResultThenFlag s _ _ _).mono (List.nil_subset _)
      (by simp [hreg, hvf])
  | loadRegs hlen hregs => exact (frameExcept_loadRegs s hlen).nextInstr.mono (List.nil_subset _) hregs
  | index hpart => exact (frameExcept_setI s _).mono (by simpa using hpart) (List.nil_subset _)
  | store hpart => exact (frameExcept_mem s _).nextInstr.mono (by simpa using hpart) (List.nil_subset _)
  | delay hpart => exact (frameExcept_dt s _).nextInstr.mono (by simpa using hpart) (List.nil_subset _)
  | sound hpart => exact (frameExcept_st s _).nextInstr.mono (by simpa using hpart) (List.nil_subset _)
  | screen hparts => exact (frameExcept_showFb s _).mono hparts (List.nil_subset _)
  | draw hparts hvf => exact (frameExcept_draw s _ _).nextInstr.mono hparts (by simpa using hvf)

/-- Memory changes only by a store, and that only inside the bytes the instruction touches at I. -/
theorem Leaves.sameBytesOutside {i : Instr} {s t : State} (h : Leaves i s t) :
    SameBytesOutside s.i.toNat (touchedBytes i) s t := by
  cases h with
  | store _ hlen =>
    rw [← hlen]
    exact sameBytesOutside_writeBytes s s.i.toNat _
  | wait | jump | skip | call | ret | reg | flag | loadRegs | index | delay | sound | screen | draw =>
    exact sameBytesOutside_of_mem_eq rfl _ _

/-- Settles O19: shape by shape, an instruction writes what the tables list. -/
theorem everyInstructionKeepsItsFrame : Obligations.EveryInstructionKeepsItsFrame :=
  fun _ _ _ h => ⟨(leaves_of_exec h).frame, (leaves_of_exec h).sameBytesOutside⟩

/-! ### The invariant -/

/-- A run of bytes that passes its range check keeps the canonical form of memory. -/
theorem Memory.wf_writeBytes_of_inRange {m : Memory} {a : Word} {bs : List Byte} (hwf : m.wf = true)
    (hrange : inRange a bs.length = true) : (m.writeBytes a.toNat bs).wf = true := by
  rcases inRange_iff.1 hrange with hnil | hfit
  · rwa [List.length_eq_zero_iff.1 hnil]
  · exact Memory.wf_writeBytes bs hwf hfit

/-- From a pc where a word fits, no advance wraps (10_state.md R36). -/
theorem toNat_pc_add {pc k : Word} (h : pc.toNat + 2 ≤ 0x1000) (hk : k.toNat ≤ 4) :
    (pc + k).toNat = pc.toNat + k.toNat :=
  BitVec.toNat_add_of_lt (by omega)

/-- From a pc a word was fetched at, an instruction keeps the invariant: a store has passed its range check, and a call
pushes an address of at most 0x1000. -/
theorem Leaves.inv {i : Instr} {s t : State} (h : Leaves i s t) (hpc : s.pc.toNat + 2 ≤ 0x1000) (hinv : s.Inv) :
    t.Inv := by
  obtain ⟨hmem, hstack⟩ := hinv
  cases h with
  | store _ _ hrange => exact ⟨Memory.wf_writeBytes_of_inRange hmem hrange, hstack⟩
  | call _ hsp =>
    refine ⟨hmem, fun k => ?slot⟩
    rw [State.setPc_stack, Vector.getElem_set]
    split
    · rwa [toNat_pc_add hpc (by decide)]
    · exact hstack k
  | wait | jump | skip | ret | reg | flag | loadRegs | index | delay | sound | screen | draw => exact ⟨hmem, hstack⟩

/-- The end of a step touches neither memory nor the stack. -/
theorem inv_endStep {u : State} (h : u.Inv) : (endStep u).Inv := h

/-- What a completed step has done: it has fetched an instruction where a word fits, and has ended from one of the
states that instruction leaves. -/
theorem exists_leaves_of_step {s t : State} (h : step s = .next t) :
    ∃ i u, s.pc.toNat + 2 ≤ 0x1000 ∧ Leaves i (beginStep s) u ∧ t = endStep u := by
  obtain ⟨i, u, hfetch, hexec, ht⟩ := step_next_iff.1 h
  obtain ⟨hpc, -⟩ := fetchInstr_ok_iff.1 hfetch
  exact ⟨i, u, hpc, leaves_of_exec hexec, ht⟩

/-- Settles O10: each shape an instruction leaves keeps the invariant, the fetch having bounded pc. -/
theorem everyStepKeepsTheInvariant : Obligations.EveryStepKeepsTheInvariant := by
  intro s t hinv hstep
  obtain ⟨i, u, hpc, hleaves, rfl⟩ := exists_leaves_of_step hstep
  exact inv_endStep (hleaves.inv hpc hinv)

/-- Settles O9: nothing has been written, and every slot is 0. -/
theorem resetMeetsTheInvariant : Obligations.ResetMeetsTheInvariant :=
  ⟨rfl, fun k => by simp⟩

/-- An image that is loaded lies inside the 4096 bytes. -/
theorem inv_loadProgram {s t : State} {bytes : List Byte} (hload : loadProgram bytes s = .ok t) (hinv : s.Inv) :
    t.Inv := by
  obtain ⟨hmem, hstack⟩ := hinv
  unfold loadProgram at hload
  split at hload
  · cases hload
  · next hlen =>
    cases hload
    have hmax : bytes.length ≤ 3584 := Nat.le_of_not_lt hlen
    have hfit : 0x200 + bytes.length ≤ 0x1000 := by omega
    exact ⟨Memory.wf_writeBytes bytes hmem hfit, hstack⟩

/-- A step the host takes keeps the invariant, whether it completes or raises an error. -/
theorem inv_hostStep {s : State} (keys : KeyLatch) (raw : Byte) (hinv : s.Inv) : (hostStep keys raw s).1.Inv := by
  have hinput : (s.withInput keys raw).Inv := hinv
  unfold hostStep
  split
  · next t hstep => exact everyStepKeepsTheInvariant _ t hinput hstep
  · exact hinv
  · exact hinv

/-- Settles O11: by induction on the operations of the host. -/
theorem everyReachableStateMeetsTheInvariant : Obligations.EveryReachableStateMeetsTheInvariant := by
  intro s hreach
  induction hreach with
  | new => exact resetMeetsTheInvariant
  | load _ hload ih => exact inv_loadProgram hload ih
  | step _ ih => exact inv_hostStep _ _ ih
  | skip _ ih => exact ih

/-- From a pc a word was fetched at, an instruction leaves pc at most 0x10FE. -/
theorem Leaves.pc_le {i : Instr} {s t : State} (h : Leaves i s t) (hpc : s.pc.toNat + 2 ≤ 0x1000) (hinv : s.Inv) :
    t.pc.toNat ≤ 0x10FE := by
  have hadvance : ∀ k : Word, k.toNat ≤ 4 → (s.pc + k).toNat ≤ 0x10FE := fun k hk => by
    rw [toNat_pc_add hpc hk]
    omega
  obtain ⟨-, hstack⟩ := hinv
  cases h with
  | wait => omega
  | jump htarget => exact htarget
  | @skip c =>
    cases c
    · exact hadvance 2 (by decide)
    · exact hadvance 4 (by decide)
  | @call nnn =>
    have := nnn.isLt
    rw [State.setPc_pc, toNat_addrOperand]
    omega
  | ret _ hsp =>
    have := hstack ⟨s.sp.val - 1, by omega⟩
    exact this.trans (by decide)
  | reg | flag | loadRegs | index | store | delay | sound | screen | draw => exact hadvance 2 (by decide)

/-- Settles O12: a target is at most 0x10FE, a return address at most 0x1000, and a skip starts at 0xFFE at most. -/
theorem pcAfterAStepIsBounded : Obligations.PcAfterAStepIsBounded := by
  intro s t hinv hstep
  obtain ⟨i, u, hpc, hleaves, rfl⟩ := exists_leaves_of_step hstep
  exact hleaves.pc_le hpc hinv

/-! ### The timers -/

theorem delayTimer_mem_writtenParts_iff {i : Instr} : Part.delayTimer ∈ writtenParts i ↔ ∃ x, i = .ldDtVx x := by
  cases i <;> simp [writtenParts]

theorem soundTimer_mem_writtenParts_iff {i : Instr} : Part.soundTimer ∈ writtenParts i ↔ ∃ x, i = .ldStVx x := by
  cases i <;> simp [writtenParts]

/-- Settles O17: the frame of the instruction keeps each timer for the timer update. -/
theorem timersCountDownUnlessWritten : Obligations.TimersCountDownUnlessWritten := by
  intro s t i hfetch hstep
  obtain ⟨j, u, hj, hexec, rfl⟩ := step_next_iff.1 hstep
  obtain rfl : j = i := Except.ok.inj (hj.symm.trans hfetch)
  obtain ⟨-, hparts⟩ := (leaves_of_exec hexec).frame
  refine ⟨fun hno => ?delay, fun hno => ?sound⟩
  case delay =>
    have hdt : u.dt = s.dt := hparts .delayTimer (by simpa [delayTimer_mem_writtenParts_iff] using hno)
    rw [endStep_dt, toNat_tick, hdt]
  case sound =>
    have hst : u.st = s.st := hparts .soundTimer (by simpa [soundTimer_mem_writtenParts_iff] using hno)
    rw [endStep_beepEdge_iff, endStep_st, toNat_tick, hst]
    omega

end Sys2Proof.Machine
end


section
/-! Proofs of the family other, errors: what each check that fails raises, when an instruction raises which error, the
unknown words, and the host's step on an error. -/

namespace Sys2Proof

/-! ### A word is rejected whole (30_encoding.md R89) -/

section
variable {w : Word} {e : UnknownOpcode}

theorem decodeGroup0_error (h : decodeGroup0 w = .error e) : e = ⟨w⟩ := by
  unfold decodeGroup0 at h
  split at h <;> cases h
  rfl

theorem decodeRegSkip_error {mk : Reg → Reg → Instr} (h : decodeRegSkip mk w = .error e) : e = ⟨w⟩ := by
  unfold decodeRegSkip at h
  split at h <;> cases h
  rfl

theorem decodeGroup8_error (h : decodeGroup8 w = .error e) : e = ⟨w⟩ := by
  unfold decodeGroup8 at h
  split at h <;> cases h
  rfl

theorem decodeGroupE_error (h : decodeGroupE w = .error e) : e = ⟨w⟩ := by
  unfold decodeGroupE at h
  split at h <;> cases h
  rfl

theorem decodeGroupF_error (h : decodeGroupF w = .error e) : e = ⟨w⟩ := by
  unfold decodeGroupF at h
  split at h <;> cases h
  rfl

theorem decode_error (h : decode w = .error e) : e = ⟨w⟩ := by
  unfold decode at h
  split at h
  case h_1 => exact decodeGroup0_error h
  case h_6 | h_10 => exact decodeRegSkip_error h
  case h_9 => exact decodeGroup8_error h
  case h_15 => exact decodeGroupE_error h
  case h_16 => exact decodeGroupF_error h
  all_goals cases h
  rfl

end

end Sys2Proof

namespace Sys2Proof.Machine

/-! ### Shared operations that fail -/

/-- The error of a range of `n` bytes at `a` that is not in memory: it has a byte, the last one is past the end, and
the error carries the lowest address past the end (20_memory.md R63). -/
def RangeError (a : Word) (n : Nat) (e : Fault) : Prop :=
  ∃ b : Word, 1 ≤ n ∧ 0x1000 ≤ a.toNat + n - 1 ∧ b.toNat = max a.toNat 0x1000 ∧ e = .memoryOutOfRange b

theorem rangeError_iff {a : Word} {n : Nat} {e : Fault} :
    RangeError a n e ↔ inRange a n = false ∧ e = .memoryOutOfRange (lowestOutOfRange a) := by
  rw [← Bool.not_eq_true, inRange_iff]
  constructor
  · rintro ⟨b, hn, hout, hb, rfl⟩
    have hlowest : b = lowestOutOfRange a := BitVec.eq_of_toNat_eq (hb.trans (toNat_lowestOutOfRange a).symm)
    exact ⟨by omega, by rw [hlowest]⟩
  · rintro ⟨hno, rfl⟩
    exact ⟨_, by omega, by omega, toNat_lowestOutOfRange a, rfl⟩

section
variable {s : State} {a : Word} {e : Fault}

theorem loadBytes_error_iff {n : Nat} : loadBytes s a n = .error e ↔ RangeError a n e := by
  rw [loadBytes_eq, rangeError_iff]
  cases inRange a n <;> simp [eq_comm]

theorem storeBytes_error_iff {bs : List Byte} : storeBytes s a bs = .error e ↔ RangeError a bs.length e := by
  rw [storeBytes_eq, rangeError_iff]
  cases inRange a bs.length <;> simp [eq_comm]

theorem push_error_iff {w : Word} : push s w = .error e ↔ s.sp.val = 16 ∧ e = .stackOverflow := by
  by_cases h : s.sp.val < 16
  · simp [push_ok s w h, h.ne]
  · have hfull : s.sp.val = 16 := by omega
    simp [push_full s w hfull, hfull, eq_comm]

theorem pop_error_iff : pop s = .error e ↔ s.sp.val = 0 ∧ e = .stackUnderflow := by
  by_cases h : 0 < s.sp.val
  · obtain ⟨p, hp, -⟩ := pop_ok s h
    simp [hp, h.ne']
  · have hempty : s.sp.val = 0 := by omega
    simp [pop_empty s hempty, hempty, eq_comm]

theorem keyOperand_error_iff {v : Byte} : keyOperand v = .error e ↔ 0xF < v.toNat ∧ e = .keyIndexOutOfRange v := by
  by_cases h : v.toNat < 16
  · simp [keyOperand_ok h, Nat.le_of_lt_succ h]
  · simp [keyOperand_error h, Nat.lt_of_succ_le (Nat.le_of_not_lt h), eq_comm]

theorem glyphOperand_error_iff {v : Byte} :
    glyphOperand v = .error e ↔ 0xF < v.toNat ∧ e = .invalidSpriteIndex v := by
  by_cases h : v.toNat ≤ 15
  · simp [glyphOperand_ok h, h]
  · simp [glyphOperand_error h, Nat.lt_of_not_le h, eq_comm]

/-- A meaning whose only failure is its check raises the error of its check, and is never refused. -/
theorem whenOk_then_next_fault_iff {α : Type} {c : Except Fault α} {k : α → State} :
    whenOk c (fun x => .next (k x)) = .fault e ↔ c = .error e := by
  cases c <;> simp

theorem whenOk_then_next_ne_refused {α : Type} {c : Except Fault α} {k : α → State} (r : Refusal) :
    whenOk c (fun x => .next (k x)) ≠ .refused r := by
  cases c <;> simp

end

/-! ### When an instruction raises which error -/

/-- The rules of the execution errors (60_exceptions.md R200): which instruction raises which one, and when. -/
def Raises (i : Instr) (s : State) (e : Fault) : Prop :=
  (i = .ret ∧ s.sp.val = 0 ∧ e = .stackUnderflow) ∨
  (∃ nnn, i = .call nnn ∧ s.sp.val = 16 ∧ e = .stackOverflow) ∨
  (∃ x, i = .ldF x ∧ 0xF < (s.getV x).toNat ∧ e = .invalidSpriteIndex (s.getV x)) ∨
  (∃ x, (i = .skp x ∨ i = .sknp x) ∧ 0xF < (s.getV x).toNat ∧ e = .keyIndexOutOfRange (s.getV x)) ∨
  RangeError s.i (touchedBytes i) e

theorem raises_keyIndexOutOfRange {i : Instr} {x : Reg} {s : State} (hi : i = .skp x ∨ i = .sknp x)
    (h : 0xF < (s.getV x).toNat) : Raises i s (.keyIndexOutOfRange (s.getV x)) :=
  .inr (.inr (.inr (.inl ⟨x, hi, h, rfl⟩)))

theorem raises_rangeError {i : Instr} {s : State} {e : Fault} (h : RangeError s.i (touchedBytes i) e) :
    Raises i s e :=
  .inr (.inr (.inr (.inr h)))

/-- Instruction by instruction: the check its meaning makes, if it makes one, is the one its rule names. -/
theorem exec_fault_iff {i : Instr} {s : State} {e : Fault} : exec i s = .fault e ↔ Raises i s e := by
  cases i with
  | ret =>
    refine (whenOk_then_next_fault_iff.trans pop_error_iff).trans ?_
    simp [Raises, RangeError, touchedBytes]
  | call =>
    refine (whenOk_then_next_fault_iff.trans push_error_iff).trans ?_
    simp [Raises, RangeError, touchedBytes]
  | ldF =>
    refine (whenOk_then_next_fault_iff.trans glyphOperand_error_iff).trans ?_
    simp [Raises, RangeError, touchedBytes]
  | skp | sknp =>
    refine (whenOk_then_next_fault_iff.trans keyOperand_error_iff).trans ?_
    simp [Raises, RangeError, touchedBytes]
  | ldB | ldStore =>
    refine (whenOk_then_next_fault_iff.trans storeBytes_error_iff).trans ?_
    simp [Raises, touchedBytes, bcdDigits]
  | drw | ldLoad =>
    refine (whenOk_then_next_fault_iff.trans loadBytes_error_iff).trans ?_
    simp [Raises, touchedBytes]
  | cls | jp | jpV0 | seImm | sneImm | seReg | sneReg | ldImm | addImm | ldReg | orReg | andReg | xorReg | addReg | sub
  | shr | subn | shl | rnd | ldI | addI | ldVxDt | ldVxK | ldDtVx | ldStVx =>
    refine iff_of_false nofun ?_
    simp [Raises, RangeError, touchedBytes]

theorem exec_ne_refused (i : Instr) (s : State) (r : Refusal) : exec i s ≠ .refused r := by
  cases i with
  | ret | call | ldF | skp | sknp | ldB | ldStore | drw | ldLoad => exact whenOk_then_next_ne_refused r
  | cls | jp | jpV0 | seImm | sneImm | seReg | sneReg | ldImm | addImm | ldReg | orReg | andReg | xorReg | addReg | sub
  | shr | subn | shl | rnd | ldI | addI | ldVxDt | ldVxK | ldDtVx | ldStVx => nofun

theorem step_ne_refused (s : State) (r : Refusal) : step s ≠ .refused r := by
  unfold step
  split
  · nofun
  · next i _ =>
    cases hexec : exec i (beginStep s) with
    | next | fault => nofun
    | refused r' => exact absurd hexec (exec_ne_refused i _ r')

/-- Settles O20: every check is one of the rules, and no meaning is missing. -/
theorem errorsAreExactlyTheListedOnes : Obligations.ErrorsAreExactlyTheListedOnes :=
  ⟨fun _ _ _ => exec_fault_iff, exec_ne_refused, step_ne_refused⟩

/-- An instruction whose bytes at I are not all in memory raises the error of their range (20_memory.md R63). -/
theorem exists_memoryOutOfRange {i : Instr} {s : State} (hn : 1 ≤ touchedBytes i)
    (hout : 0x1000 ≤ s.i.toNat + touchedBytes i - 1) :
    ∃ a : Word, a.toNat = max s.i.toNat 0x1000 ∧ exec i s = .fault (.memoryOutOfRange a) := by
  have haddr := toNat_lowestOutOfRange s.i
  exact ⟨_, haddr, exec_fault_iff.2 (raises_rangeError ⟨_, hn, hout, haddr, rfl⟩)⟩

/-- No instruction raises `UnknownOpcode`: that is the decoder's error. -/
theorem not_raises_unknownOpcode (i : Instr) (s : State) (w : Word) : ¬ Raises i s (.unknownOpcode w) := by
  simp [Raises, RangeError]

/-! ### Errors of the fetch and of the decoder -/

theorem fetchInstr_unknownOpcode_iff {s : State} {w : Word} (hw : fetchWord s = .ok w) :
    fetchInstr s = .error (.unknownOpcode w) ↔ ∃ e, decode w = .error e := by
  simp only [fetchInstr, hw]
  cases hdec : decode w with
  | ok i => simp
  | error e => simp [decode_error hdec]

/-- Settles O6: a word of no row is rejected whole, and nothing else raises its error. -/
theorem unmatchedWordRaisesUnknownOpcode : Obligations.UnmatchedWordRaisesUnknownOpcode := by
  intro s w hw
  rw [← decode_error_iff, ← fetchInstr_unknownOpcode_iff hw, step_fault_iff, or_iff_left]
  rintro ⟨i, -, hexec⟩
  exact not_raises_unknownOpcode i _ w (exec_fault_iff.1 hexec)

/-- Settles O15: two bytes from 0xFFF up do not fit. -/
theorem fetchOutOfRangeFaults : Obligations.FetchOutOfRangeFaults :=
  fun s h => ⟨_, toNat_lowestOutOfRange s.pc, step_of_pc_outOfRange h⟩

/-! ### The host's step on an error -/

/-- Settles O21: `hostStep` gives back the state before the step. -/
theorem failedStepLeavesTheState : Obligations.FailedStepLeavesTheState :=
  fun _ _ _ _ h => hostStep_of_fault h

/-- No rule of an error speaks of the inputs of the step. -/
theorem raises_withInput_iff (i : Instr) (s : State) (keys : KeyLatch) (raw : Byte) (e : Fault) :
    Raises i (beginStep (s.withInput keys raw)) e ↔ Raises i s e := Iff.rfl

/-- An error of a step does not depend on the inputs supplied for it. -/
theorem step_withInput_fault_iff {s : State} {keys : KeyLatch} {raw : Byte} {e : Fault} :
    step (s.withInput keys raw) = .fault e ↔
      fetchInstr s = .error e ∨ ∃ i, fetchInstr s = .ok i ∧ Raises i s e := by
  simp only [step_fault_iff, fetchInstr_withInput, exec_fault_iff, raises_withInput_iff]

/-- Settles O22: neither the fetch nor the rules of the errors read the inputs. -/
theorem retriedStepRaisesTheSameError : Obligations.RetriedStepRaisesTheSameError :=
  fun _ _ _ _ _ _ h => step_withInput_fault_iff.2 (step_withInput_fault_iff.1 h)

end Sys2Proof.Machine
end


section
/-! Proofs of the family other, the step and its inputs: the step cycle around one instruction, the inputs an
instruction does not read, and the instructions that read the draw or the latch. -/

namespace Sys2Proof

/-- Two bytes that decode with nothing left over are a word that decodes. -/
theorem decode_of_decodeBytes {hi lo : Byte} {i : Instr} (h : decodeBytes [hi, lo] = .ok (i, [])) :
    decode (wordOfBytes hi lo) = .ok i := by
  cases hdec : decode (wordOfBytes hi lo) with
  | ok j => simpa [decodeBytes, hdec] using h
  | error e => simp [decodeBytes, hdec] at h

end Sys2Proof

namespace Sys2Proof.Machine

/-! ### The step cycle -/

/-- Where an instruction is fetched, the step executes it and ticks (30_encoding.md R92). -/
theorem step_of_fetchInstr {s : State} {i : Instr} (hfetch : fetchInstr s = .ok i) :
    step s = match exec i (beginStep s) with
      | .next t => .next (endStep t)
      | .fault e => .fault e
      | .refused r => .refused r := by
  unfold step
  rw [hfetch]
  rfl

/-- Settles O13: the two bytes at pc are what the step fetches and decodes. -/
theorem stepRunsTheDecodedInstruction : Obligations.StepRunsTheDecodedInstruction := by
  refine ⟨fun s i hpc hbytes => ?cycle, fun _ => rfl, fun _ => rfl, rfl⟩
  exact step_of_fetchInstr (fetchInstr_ok_iff.2 ⟨hpc, decode_of_decodeBytes hbytes⟩)

/-- A host's step whose instruction completes gives the state at its end and the report held there. -/
theorem hostStep_of_exec_next {keys : KeyLatch} {raw : Byte} {s u : State} {i : Instr}
    (hfetch : fetchInstr s = .ok i) (hexec : exec i (beginStep (s.withInput keys raw)) = .next u) :
    hostStep keys raw s = (endStep u, .next (endStep u).report) :=
  hostStep_next_iff.2 ⟨i, u, hfetch, hexec, rfl, rfl⟩

/-! ### The placed word -/

/-- Placing a word changes memory alone. -/
theorem frameExcept_placeWord (s : State) (w : Word) : FrameExcept [.memory] [] s (placeWord s w) := by
  unfold placeWord
  split
  · exact frameExcept_mem s _
  · exact (frameExcept_refl s).mono (List.nil_subset _) (List.nil_subset _)

theorem sameBytesOutside_placeWord (s : State) (w : Word) : SameBytesOutside s.pc.toNat 2 s (placeWord s w) := by
  unfold placeWord
  split
  · exact sameBytesOutside_writeBytes s s.pc.toNat [highByte w, lowByte w]
  · exact sameBytesOutside_of_mem_eq rfl _ _

theorem placeWord_pc (s : State) (w : Word) : (placeWord s w).pc = s.pc := by
  unfold placeWord
  split <;> rfl

theorem withFetchWord_toNat (s : State) (w : Word) : s.withFetchWord 16 w.toNat = placeWord s w := by
  rw [State.withFetchWord, tableWord_toNat]

/-- Settles O14: the word placed is the one fetched, and it decodes to the instruction it encodes. -/
theorem placedWordIsTheNextInstruction : Obligations.PlacedWordIsTheNextInstruction := by
  intro s i hwf hpc
  have hdec : decode (encode i) = .ok i := decode_encode hwf
  rw [withFetchWord_toNat]
  refine ⟨decodeTableWord_toNat hdec, ?fetch, sameBytesOutside_placeWord s _, frameExcept_placeWord s _,
    placeWord_pc s _⟩
  simp only [fetchInstr, fetchWord_placeWord _ hpc, hdec]

/-! ### Inputs that are not read -/

/-- Cxnn, the one instruction that reads the draw (10_state.md R44). -/
def ReadsDraw (i : Instr) : Prop := ∃ x nn, i = .rnd x nn

/-- Ex9E, ExA1 and Fx0A, the instructions that read the latch (10_state.md R43). -/
def ReadsLatch (i : Instr) : Prop := ∃ x, i = .skp x ∨ i = .sknp x ∨ i = .ldVxK x

/-- The state with other chosen inputs. -/
def State.setInputs (s : State) (inputs : List HostInput) : State := { s with inputs := inputs }

/-- Where other inputs give an instruction the same draw and latch as far as it reads them, it does the same and carries
the other inputs along. -/
theorem exec_setInputs {i : Instr} {s t : State} {inputs : List HostInput} (h : exec i s = .next t)
    (hrnd : ReadsDraw i → (s.setInputs inputs).rnd = s.rnd)
    (hkeys : ReadsLatch i → (s.setInputs inputs).keys = s.keys) :
    exec i (s.setInputs inputs) = .next (t.setInputs inputs) := by
  cases i with
  | rnd x nn =>
    cases h
    have hexec : exec (.rnd x nn) (s.setInputs inputs) =
      .next ((s.setInputs inputs).setV x ((s.setInputs inputs).rnd &&& nn)).nextInstr := rfl
    rw [hexec, hrnd ⟨x, nn, rfl⟩]
    rfl
  | ldVxK x =>
    cases h
    rw [exec_ldVxK, keyWaitState, keyWaitState, hkeys ⟨x, .inr (.inr rfl)⟩]
    split <;> rfl
  | skp x | sknp x =>
    obtain ⟨k, hk, ht⟩ := whenOk_next_iff.1 h
    cases ht
    have hdown : keyDown (s.setInputs inputs) k = keyDown s k := by
      rw [keyDown, hkeys ⟨x, by simp⟩, keyDown]
    refine whenOk_next_iff.2 ⟨k, hk, ?_⟩
    rw [hdown]
    rfl
  | ret =>
    obtain ⟨p, hp, ht⟩ := whenOk_next_iff.1 h
    obtain ⟨hsp, rfl⟩ := pop_ok_iff.1 hp
    cases ht
    exact whenOk_next_iff.2 ⟨_, pop_ok_iff.2 ⟨hsp, rfl⟩, rfl⟩
  | call =>
    obtain ⟨u, hu, ht⟩ := whenOk_next_iff.1 h
    obtain ⟨hsp, rfl⟩ := push_ok_iff.1 hu
    cases ht
    exact whenOk_next_iff.2 ⟨_, push_ok_iff.2 ⟨hsp, rfl⟩, rfl⟩
  | ldB | ldStore =>
    obtain ⟨u, hu, ht⟩ := whenOk_next_iff.1 h
    obtain ⟨hrange, rfl⟩ := storeBytes_ok_iff.1 hu
    cases ht
    exact whenOk_next_iff.2 ⟨_, storeBytes_ok_iff.2 ⟨hrange, rfl⟩, rfl⟩
  | ldLoad | drw | ldF =>
    obtain ⟨a, ha, ht⟩ := whenOk_next_iff.1 h
    cases ht
    exact whenOk_next_iff.2 ⟨a, ha, rfl⟩
  | cls | jp | jpV0 | seImm | sneImm | seReg | sneReg | ldImm | addImm | ldReg | orReg | andReg | xorReg | addReg | sub
  | shr | subn | shl | ldI | addI | ldVxDt | ldDtVx | ldStVx =>
    cases h
    rfl

/-- No instruction touches the chosen inputs. -/
theorem inputs_of_exec {i : Instr} {s u : State} (h : exec i s = .next u) : u.inputs = s.inputs := by
  obtain ⟨-, hparts⟩ := (leaves_of_exec h).frame
  have hinputs : SamePart s u .stepInputs := hparts _ (by cases i <;> simp [writtenParts])
  exact hinputs.1

/-- The end of the step uses up the supplied input, so that no trace of it is left. -/
theorem endStep_setInputs {u : State} {inp inp' : HostInput} {rest : List HostInput} (h : u.inputs = inp :: rest) :
    endStep (u.setInputs (inp' :: rest)) = endStep u := by
  cases u
  cases h
  rfl

/-- Inputs that agree as far as the instruction reads them give the same step. -/
theorem hostStep_congr {keys keys' : KeyLatch} {raw raw' : Byte} {s : State} {i : Instr}
    (hfetch : fetchInstr s = .ok i) (hraw : ReadsDraw i → raw' = raw) (hkeys : ReadsLatch i → keys' = keys) :
    hostStep keys raw s = hostStep keys' raw' s := by
  cases hexec : exec i (beginStep (s.withInput keys raw)) with
  | next u =>
    have hother : exec i (beginStep (s.withInput keys' raw')) = .next (u.setInputs (⟨keys', raw'⟩ :: s.inputs)) :=
      exec_setInputs hexec (fun hi => congrArg (RandRange.draw Config.randRange) (hraw hi)) hkeys
    rw [hostStep_of_exec_next hfetch hexec, hostStep_of_exec_next hfetch hother,
      endStep_setInputs (inputs_of_exec hexec)]
  | fault e =>
    have hother : exec i (beginStep (s.withInput keys' raw')) = .fault e := by
      simpa only [exec_fault_iff, raises_withInput_iff] using hexec
    rw [hostStep_of_exec_fault hfetch hexec, hostStep_of_exec_fault hfetch hother]
  | refused r => exact absurd hexec (exec_ne_refused i _ r)

/-- Settles O23: only Cxnn reads the draw, only Ex9E, ExA1 and Fx0A the latch. -/
theorem inputsReachOnlyTheirInstructions : Obligations.InputsReachOnlyTheirInstructions := by
  intro keys keys' raw raw' s i hfetch
  refine ⟨fun hno => hostStep_congr hfetch ?draw fun _ => rfl, fun hno => hostStep_congr hfetch (fun _ => rfl) ?latch⟩
  case draw =>
    rintro ⟨x, nn, hi⟩
    exact absurd hi (hno x nn)
  case latch =>
    rintro ⟨x, hi⟩
    obtain ⟨hskp, hsknp, hldVxK⟩ := hno x
    rcases hi with hi | hi | hi
    · exact absurd hi hskp
    · exact absurd hi hsknp
    · exact absurd hi hldVxK

/-! ### RND -/

theorem exec_rnd (x : Reg) (nn : Byte) (s : State) :
    exec (.rnd x nn) s = .next (s.setV x (s.rnd &&& nn)).nextInstr := rfl

theorem contains_rnd (s : State) : RandRange.contains Config.randRange s.rnd = true :=
  RandRange.contains_draw _ _

/-- Settles O38: RND is `setV` of the masked draw, and a mask of all ones keeps the draw. -/
theorem rndMasksTheDraw : Obligations.RndMasksTheDraw := by
  refine ⟨rowDecodesTo_of_group fun _ => decode_of_groupC, contains_rnd, fun x nn s =>
    ⟨_, exec_rnd x nn s, fun k => ?mask, fun hzero => ?zero, fun hones => ?ones, rfl, frameExcept_setV s x _⟩⟩
  all_goals rw [getV_nextInstr_setV]
  case mask => rw [BitVec.getLsbD_and]
  case zero =>
    have hnn : nn = 0#8 := BitVec.eq_of_toNat_eq hzero
    rw [hnn, BitVec.and_zero]
    rfl
  case ones =>
    have hnn : nn = BitVec.allOnes 8 := BitVec.eq_of_toNat_eq hones
    rw [hnn, BitVec.and_allOnes]
    exact contains_rnd s

/-! ### The key skips -/

section
variable {x : Reg} {s : State}

theorem exec_skp_of_lt (h : (s.getV x).toNat < 16) :
    exec (.skp x) s = .next (s.skipIf s.keys[(s.getV x).toNat]) :=
  whenOk_next_iff.2 ⟨_, keyOperand_ok h, rfl⟩

theorem exec_sknp_of_lt (h : (s.getV x).toNat < 16) :
    exec (.sknp x) s = .next (s.skipIf !s.keys[(s.getV x).toNat]) :=
  whenOk_next_iff.2 ⟨_, keyOperand_ok h, rfl⟩

end

/-- A skip on a key that is not pressed. -/
theorem State.skipIf_not_pc (s : State) (c : Bool) : (s.skipIf !c).pc = s.pc + (if c = true then 2#16 else 4#16) := by
  cases c <;> rfl

/-- Settles O50: both skips are `skipIf` on the key of the latch, and a value above 0xF is the error of its rule. -/
theorem keySkipsReadTheLatch : Obligations.KeySkipsReadTheLatch := by
  refine ⟨rowDecodesTo_of_groupE rfl fun _ => decodeGroupE_eq_skp, rowDecodesTo_of_groupE rfl fun _ =>
    decodeGroupE_eq_sknp, fun x s => ⟨fun h => ⟨?skp, ?sknp⟩, fun h => ⟨?skpError, ?sknpError⟩⟩⟩
  case skp => exact ⟨_, exec_skp_of_lt h, rfl, frameExcept_setPc s _⟩
  case sknp => exact ⟨_, exec_sknp_of_lt h, State.skipIf_not_pc s _, frameExcept_setPc s _⟩
  case skpError => exact exec_fault_iff.2 (raises_keyIndexOutOfRange (.inl rfl) h)
  case sknpError => exact exec_fault_iff.2 (raises_keyIndexOutOfRange (.inr rfl) h)

/-! ### The supplied inputs -/

/-- A completed step uses up the supplied input and no other. -/
theorem inputs_of_hostStep {keys : KeyLatch} {raw : Byte} {s t : State} {rep : StepReport}
    (h : hostStep keys raw s = (t, .next rep)) : t.inputs = s.inputs := by
  obtain ⟨i, u, -, hexec, rfl, -⟩ := hostStep_next_iff.1 h
  rw [endStep_inputs, inputs_of_exec hexec]
  rfl

/-- Settles O56: the state a step executes from holds the supplied latch and draw. -/
theorem suppliedInputsAreTheOnesRead : Obligations.SuppliedInputsAreTheOnesRead := by
  refine ⟨fun b => RandRange.contains_iff_draw, fun keys raw s => ?_⟩
  refine ⟨rfl, rfl, frameExcept_inputs s _, rfl, fun t rep => inputs_of_hostStep, ?rnd, ?skp, ?sknp, ?key, ?wait⟩
  case rnd =>
    intro x nn hfetch
    refine ⟨_, _, hostStep_of_exec_next hfetch (exec_rnd x nn _), ?_⟩
    rw [endStep_getV, getV_nextInstr_setV, beginStep_rnd, State.withInput_rnd]
  case skp =>
    intro x h hfetch
    exact ⟨_, _, hostStep_of_exec_next hfetch (exec_skp_of_lt (s := beginStep (s.withInput keys raw)) h), rfl⟩
  case sknp =>
    intro x h hfetch
    exact ⟨_, _, hostStep_of_exec_next hfetch (exec_sknp_of_lt (s := beginStep (s.withInput keys raw)) h),
      State.skipIf_not_pc _ _⟩
  case key =>
    intro x k hfetch hk hlow
    refine ⟨_, _, hostStep_of_exec_next hfetch (exec_ldVxK_of_lowest x hk hlow), ?_, rfl⟩
    rw [endStep_getV, getV_nextInstr_setV, BitVec.toNat_ofNat]
    exact Nat.mod_eq_of_lt (k.isLt.trans (by decide))
  case wait =>
    intro x hfetch hnone
    exact ⟨_, _, hostStep_of_exec_next hfetch (exec_ldVxK_of_no_key x hnone), rfl, rfl⟩

end Sys2Proof.Machine
end


section
/-! Proofs of the family other, the call stack, the transfers through I, the timer writes and the host's operations. -/

namespace Sys2Proof.Machine

/-! ### Call and return -/

section
variable {s : State}

/-- A call below 16 entries pushes the address of the next word and jumps (41_control_flow.md R102). -/
theorem exec_call_of_lt (nnn : Addr12) (h : s.sp.val < 16) :
    exec (.call nnn) s = .next (State.setPc { s with
      stack := s.stack.set s.sp.val (s.pc + 2) h, sp := ⟨s.sp.val + 1, Nat.succ_lt_succ h⟩ } (addrOperand nnn)) :=
  whenOk_next_iff.2 ⟨_, push_ok s _ h, rfl⟩

/-- A return with an entry on the stack jumps to the last one (41_control_flow.md R100). -/
theorem exec_ret_of_pos (h : 0 < s.sp.val) :
    exec .ret s = .next (State.setPc { s with sp := ⟨s.sp.val - 1, by omega⟩ }
      (s.stack[s.sp.val - 1]'(by omega))) :=
  whenOk_next_iff.2 ⟨_, pop_ok_iff.2 ⟨h, rfl⟩, rfl⟩

end

/-- Settles O24: RET moves sp and sets pc, or raises the error of its rule. -/
theorem retPopsTheReturnAddress : Obligations.RetPopsTheReturnAddress := by
  refine ⟨rowDecodesTo_of_word rfl, fun s => ⟨fun h => ?pop, fun h => ?error⟩⟩
  case pop => exact ⟨_, exec_ret_of_pos h, rfl, rfl, rfl, (frameExcept_callStack s _ _).setPc _⟩
  case error => exact exec_fault_iff.2 (.inl ⟨rfl, h, rfl⟩)

/-- Settles O26: CALL fills the slot at sp and jumps, or raises the error of its rule. -/
theorem callPushesTheNextAddress : Obligations.CallPushesTheNextAddress := by
  refine ⟨rowDecodesTo_of_group fun _ => decode_of_group2, fun nnn s => ⟨fun h => ?push, fun h => ?error⟩⟩
  case push =>
    refine ⟨_, exec_call_of_lt nnn h, toNat_addrOperand nnn, rfl, fun k => ?slot, (frameExcept_callStack s _ _).setPc _⟩
    rw [State.setPc_stack, Vector.getElem_set]
    exact if_congr eq_comm rfl rfl
  case error => exact exec_fault_iff.2 (.inr (.inl ⟨nnn, rfl, h, rfl⟩))

/-- Settles O30: the return pops the slot the call has filled, wherever pc stands. -/
theorem callThenRetComesBack : Obligations.CallThenRetComesBack := by
  intro nnn s p h
  refine ⟨_, _, exec_call_of_lt nnn h, exec_ret_of_pos (Nat.succ_pos _), ?address, rfl,
    (frameExcept_callStack s _ _).setPc _⟩
  exact Vector.getElem_set_self h

/-! ### ADD I, Vx -/

theorem exec_addI (x : Reg) (s : State) :
    exec (.addI x) s = .next (s.setI (s.i + zext16 (s.getV x))).nextInstr := rfl

/-- Settles O40: ADD I, Vx is `setI` of the wrapped sum. -/
theorem addIWrapsAndSetsNoFlag : Obligations.AddIWrapsAndSetsNoFlag := by
  refine ⟨rowDecodesTo_of_groupF rfl fun _ => decodeGroupF_eq_addI, fun x s =>
    ⟨_, exec_addI x s, ?sum, rfl, frameExcept_setI s _⟩⟩
  rw [State.nextInstr_i, State.setI_i, BitVec.toNat_add, BitVec.toNat_setWidth_of_le (by decide)]

/-! ### Stores and loads through I -/

section
variable {s : State} {x : Reg}

/-- A store that fits writes its run and goes on. -/
theorem storeBytes_nextInstr {bs : List Byte} (h : s.i.toNat + bs.length ≤ 0x1000) :
    whenOk (storeBytes s s.i bs) (fun t => .next t.nextInstr) =
      .next (State.nextInstr { s with mem := s.mem.writeBytes s.i.toNat bs }) :=
  whenOk_next_iff.2 ⟨_, storeBytes_ok_iff.2 ⟨inRange_iff.2 (.inr h), rfl⟩, rfl⟩

theorem exec_ldB_of_lt (h : s.i.toNat + 2 < 0x1000) :
    exec (.ldB x) s =
      .next (State.nextInstr { s with mem := s.mem.writeBytes s.i.toNat (bcdDigits (s.getV x)) }) :=
  storeBytes_nextInstr (Nat.succ_le_of_lt h)

theorem exec_ldStore_of_lt (h : s.i.toNat + x.val < 0x1000) :
    exec (.ldStore x) s = .next (State.nextInstr { s with mem := s.mem.writeBytes s.i.toNat (regsUpTo s x) }) :=
  storeBytes_nextInstr (by rw [length_regsUpTo]; exact h)

theorem exec_ldLoad_of_lt (h : s.i.toNat + x.val < 0x1000) :
    exec (.ldLoad x) s =
      .next (State.nextInstr { s with v := loadRegsFrom s.v 0 (s.mem.readBytes s.i.toNat (x.val + 1)) }) :=
  whenOk_next_iff.2 ⟨_, loadBytes_ok_iff.2 ⟨inRange_iff.2 (.inr h), rfl⟩, rfl⟩

/-- The byte a register dump stores for Vk. -/
theorem read_writeBytes_regsUpTo (m : Memory) (lo : Nat) {k : Reg} (hk : k ≤ x) :
    (m.writeBytes lo (regsUpTo s x)).read (lo + k.val) = s.getV k := by
  rw [Memory.read_writeBytes_inside _ _ _ _ (by rw [length_regsUpTo]; exact Nat.lt_succ_of_le hk), getElem_regsUpTo]

/-- The byte a register load reads for Vk. -/
theorem getV_loadRegs_readBytes {k : Reg} (a : Nat) (hk : k ≤ x) :
    State.getV { s with v := loadRegsFrom s.v 0 (s.mem.readBytes a (x.val + 1)) } k = s.mem.read (a + k.val) := by
  rw [getV_loadRegs_inside s (by rw [Memory.length_readBytes]; exact Nat.lt_succ_of_le hk), Memory.getElem_readBytes]

end

@[simp] theorem length_bcdDigits (v : Byte) : (bcdDigits v).length = 3 := rfl

/-- Settles O42: the run stored is the three digits. -/
theorem ldBStoresThreeDigits : Obligations.LdBStoresThreeDigits := by
  refine ⟨rowDecodesTo_of_groupF rfl fun _ => decodeGroupF_eq_ldB, fun x s => ⟨fun h => ?store, fun h => ?error⟩⟩
  case store =>
    have hread := Memory.read_writeBytes_inside (bcdDigits (s.getV x)) s.mem s.i.toNat
    refine ⟨_, exec_ldB_of_lt h, ?hundreds, ?tens, ?ones,
      sameBytesOutside_writeBytes s _ (bcdDigits (s.getV x)), rfl, (frameExcept_mem s _).nextInstr⟩
    case hundreds => exact (congrArg BitVec.toNat (hread 0 (by simp))).trans BitVec.toNat_udiv
    case tens =>
      refine (congrArg BitVec.toNat (hread 1 (by simp))).trans (BitVec.toNat_umod.trans ?_)
      rw [BitVec.toNat_udiv]
      rfl
    case ones => exact (congrArg BitVec.toNat (hread 2 (by simp))).trans BitVec.toNat_umod
  case error => exact exists_memoryOutOfRange (i := .ldB x) (Nat.succ_pos _) h

/-- Settles O43: the run stored is V0 to Vx. -/
theorem ldStoreStoresRegisters : Obligations.LdStoreStoresRegisters := by
  refine ⟨rowDecodesTo_of_groupF rfl fun _ => decodeGroupF_eq_ldStore, fun x s =>
    ⟨fun h => ?store, fun h => exists_memoryOutOfRange (i := .ldStore x) (Nat.succ_pos _) h⟩⟩
  refine ⟨_, exec_ldStore_of_lt h, fun k hk => read_writeBytes_regsUpTo _ _ hk, ?outside, rfl,
    (frameExcept_mem s _).nextInstr⟩
  have houtside := sameBytesOutside_writeBytes s s.i.toNat (regsUpTo s x)
  rwa [length_regsUpTo] at houtside

/-- Settles O44: the run loaded is the bytes from I up, and it ends at Vx. -/
theorem ldLoadLoadsRegisters : Obligations.LdLoadLoadsRegisters := by
  refine ⟨rowDecodesTo_of_groupF rfl fun _ => decodeGroupF_eq_ldLoad, fun x s =>
    ⟨fun h => ?load, fun h => exists_memoryOutOfRange (i := .ldLoad x) (Nat.succ_pos _) h⟩⟩
  have hlen := Memory.length_readBytes s.mem s.i.toNat (x.val + 1)
  exact ⟨_, exec_ldLoad_of_lt h, fun k hk => getV_loadRegs_readBytes _ hk,
    fun k hk => getV_loadRegs_above s (hlen.trans_le hk), rfl, (frameExcept_loadRegs s hlen).nextInstr⟩

/-- Settles O45: the load reads back the bytes the dump stored, I being unchanged. -/
theorem storeThenLoadRestoresRegisters : Obligations.StoreThenLoadRestoresRegisters := by
  intro x s v h
  refine ⟨_, _, exec_ldStore_of_lt h, exec_ldLoad_of_lt h, fun k hk => ?_⟩
  exact (getV_loadRegs_readBytes _ hk).trans (read_writeBytes_regsUpTo _ _ hk)

/-- Settles O46: the two bytes of the fetch are those stored for two registers in a row. -/
theorem storedBytesAreFetched : Obligations.StoredBytesAreFetched := by
  intro x k k' s p h hnext hk' hp
  have hle : k'.val ≤ x.val := hk'
  have hk : k ≤ x := Fin.le_def.2 (by omega)
  have hrange : inRange p 2 = true := inRange_iff.2 (.inr (by omega))
  have hnextAddr : p.toNat + 1 = s.i.toNat + k'.val := by omega
  refine ⟨_, exec_ldStore_of_lt h, ?_⟩
  rw [fetchWord_eq, State.setPc_pc, if_pos hrange, State.setPc_mem, State.nextInstr_mem, hnextAddr, hp,
    read_writeBytes_regsUpTo _ _ hk, read_writeBytes_regsUpTo _ _ hk']

/-! ### The timer writes -/

theorem exec_ldDtVx (x : Reg) (s : State) :
    exec (.ldDtVx x) s = .next (State.nextInstr { s with dt := s.getV x }) := rfl

theorem exec_ldStVx (x : Reg) (s : State) :
    exec (.ldStVx x) s = .next (State.nextInstr { s with st := s.getV x }) := rfl

/-- Settles O53: each write is followed by the timer update of its step. -/
theorem timerWritesTickInTheSameStep : Obligations.TimerWritesTickInTheSameStep := by
  refine ⟨rowDecodesTo_of_groupF rfl fun _ => decodeGroupF_eq_ldDtVx, rowDecodesTo_of_groupF rfl fun _ =>
    decodeGroupF_eq_ldStVx, fun x s => ⟨?delay, ?sound, fun hfetch => ?delayStep, fun hfetch => ?soundStep⟩⟩
  case delay => exact ⟨_, exec_ldDtVx x s, rfl, rfl, (frameExcept_dt s _).nextInstr⟩
  case sound => exact ⟨_, exec_ldStVx x s, rfl, rfl, (frameExcept_st s _).nextInstr⟩
  case delayStep => exact ⟨_, step_of_exec_next hfetch (exec_ldDtVx x _), toNat_tick _⟩
  case soundStep =>
    refine ⟨_, step_of_exec_next hfetch (exec_ldStVx x _), toNat_tick _, ?_⟩
    have hclamp : ∀ v : Nat, v = 1 ∧ v - 1 = 0 ↔ v = 1 := by omega
    rw [endStep_beepEdge_iff, endStep_st, toNat_tick]
    exact hclamp _

/-! ### The host's operations -/

/-- Settles O54: the image is one run of bytes from 0x200. -/
theorem loadProgramCopiesTheImage : Obligations.LoadProgramCopiesTheImage := by
  intro bytes s
  refine ⟨fun h => ?copied, fun h => if_pos h⟩
  exact ⟨_, if_neg (Nat.not_lt.2 h), Memory.read_writeBytes_inside bytes s.mem 0x200,
    sameBytesOutside_writeBytes s 0x200 bytes, frameExcept_mem s _, rfl⟩

/-- Settles O55: `skip_word` is a change of pc. -/
theorem skipWordAdvancesPcOnly : Obligations.SkipWordAdvancesPcOnly :=
  fun s => ⟨rfl, frameExcept_setPc s _, rfl, rfl⟩

/-- Settles O57: both reads return fields of the state. -/
theorem hostReadsReturnTheState : Obligations.HostReadsReturnTheState :=
  fun _ => ⟨rfl, rfl⟩

/-- Settles O8: the framebuffer after construction is the clear one. -/
theorem resetScreenAndTimers : Obligations.ResetScreenAndTimers :=
  ⟨Framebuffer.pixel_clear, rfl, rfl⟩

end Sys2Proof.Machine
end


section
/-! Proofs of the family other, the sprite draw: the pixels the spec says a sprite covers are those the engine draws,
so that one draw flips them and a second one flips them back. -/

namespace Sys2Proof.Machine

/-- The rows read at `a` cover the pixels the spec says the sprite there covers (44_display.md R161, R162). -/
theorem rowsCover_readBytes_iff {m : Memory} {a n ox oy : Nat} {y : Fin 32} {x : Fin 64} :
    rowsCover ox oy (m.readBytes a n) y x ↔ SpriteCovers m a n ox oy y x := by
  constructor
  · rintro ⟨r, c, hr, hc, hy, hbit, hx⟩
    rw [Memory.getElem_readBytes] at hbit
    rw [Memory.length_readBytes] at hr
    exact ⟨r, c, hr, hc, congrArg Fin.val hx, congrArg Fin.val hy, hbit⟩
  · rintro ⟨r, c, hr, hc, hx, hy, hbit⟩
    refine ⟨r, c, by rwa [Memory.length_readBytes], hc, Fin.ext hy, ?_, Fin.ext hx⟩
    rwa [Memory.getElem_readBytes]

/-- The pixels Dxyn covers in the state it starts from. -/
def Covers (x y : Reg) (n : Nat) (s : State) : Fin 32 → Fin 64 → Prop :=
  SpriteCovers s.mem s.i.toNat n (s.getV x).toNat (s.getV y).toNat

/-- The covered pixels depend on memory, I and the origin alone. -/
theorem covers_congr {x y : Reg} {s s' : State} (n : Nat) (hmem : s'.mem = s.mem) (hi : s'.i = s.i)
    (hx : s'.getV x = s.getV x) (hy : s'.getV y = s.getV y) : Covers x y n s' = Covers x y n s := by
  simp only [Covers, hmem, hi, hx, hy]

/-- What Dxyn draws in the state it starts from. -/
def spriteDrawing (x y : Reg) (n : Nat) (s : State) : Drawing :=
  drawSprite s.fb (s.getV x).toNat (s.getV y).toNat (s.mem.readBytes s.i.toNat n)

/-- The state Dxyn leaves. -/
def drawnState (x y : Reg) (n : Nat) (s : State) : State :=
  ((s.showFb (spriteDrawing x y n s).fb).setV vf (collisionFlag (spriteDrawing x y n s).hit)).nextInstr

/-- Where the rows are in memory, Dxyn draws them; with no rows it reads no memory (20_memory.md R63). -/
theorem exec_drw_of_fit (x y : Reg) {n : Nat} {s : State} (h : n = 0 ∨ s.i.toNat + n - 1 < 0x1000) :
    exec (.drw x y n) s = .next (drawnState x y n s) :=
  whenOk_next_iff.2 ⟨_, loadBytes_ok_iff.2 ⟨inRange_iff.2 (by omega), rfl⟩, rfl⟩

theorem toNat_collisionFlag (hit : Bool) : (collisionFlag hit).toNat = if hit = true then 1 else 0 := by
  cases hit <;> rfl

section
variable {x y : Reg} {n : Nat} {s : State} (hwf : WellFormed (.drw x y n) = true)
include hwf

/-- The sprite engine on the rows at I. A well-formed Dxyn has at most 15 rows, so that no row wraps onto another. -/
theorem spriteDrawing_spec :
    (∀ py px, (Covers x y n s py px →
        Framebuffer.pixel (spriteDrawing x y n s).fb py px = !Framebuffer.pixel s.fb py px) ∧
      (¬ Covers x y n s py px → Framebuffer.pixel (spriteDrawing x y n s).fb py px = Framebuffer.pixel s.fb py px)) ∧
    ((spriteDrawing x y n s).hit = true ↔ ∃ py px, Covers x y n s py px ∧ Framebuffer.pixel s.fb py px = true) := by
  have hn : n ≤ 15 := of_decide_eq_true hwf
  have hspec := drawSprite_spec s.fb (s.getV x).toNat (s.getV y).toNat (s.mem.readBytes s.i.toNat n)
    (by rw [Memory.length_readBytes]; omega)
  simp only [rowsCover_readBytes_iff] at hspec
  exact hspec

theorem pixel_drawnState_of_covers {py : Fin 32} {px : Fin 64} (h : Covers x y n s py px) :
    Framebuffer.pixel (drawnState x y n s).fb py px = !Framebuffer.pixel s.fb py px := by
  obtain ⟨hpixels, -⟩ := spriteDrawing_spec hwf
  exact (hpixels py px).1 h

theorem pixel_drawnState_of_not_covers {py : Fin 32} {px : Fin 64} (h : ¬ Covers x y n s py px) :
    Framebuffer.pixel (drawnState x y n s).fb py px = Framebuffer.pixel s.fb py px := by
  obtain ⟨hpixels, -⟩ := spriteDrawing_spec hwf
  exact (hpixels py px).2 h

theorem vf_drawnState_of_hit {py : Fin 32} {px : Fin 64} (hcov : Covers x y n s py px)
    (hset : Framebuffer.pixel s.fb py px = true) : ((drawnState x y n s).getV vf).toNat = 1 := by
  obtain ⟨-, hiff⟩ := spriteDrawing_spec hwf
  have hhit : (spriteDrawing x y n s).hit = true := hiff.2 ⟨py, px, hcov, hset⟩
  rw [drawnState, getV_nextInstr_setV, toNat_collisionFlag, if_pos hhit]

theorem vf_drawnState_of_no_hit (h : ∀ py px, Covers x y n s py px → Framebuffer.pixel s.fb py px = false) :
    ((drawnState x y n s).getV vf).toNat = 0 := by
  obtain ⟨-, hiff⟩ := spriteDrawing_spec hwf
  have hhit : ¬ (spriteDrawing x y n s).hit = true := fun hhit => by
    obtain ⟨py, px, hcov, hset⟩ := hiff.1 hhit
    exact Bool.false_ne_true ((h py px hcov).symm.trans hset)
  rw [drawnState, getV_nextInstr_setV, toNat_collisionFlag, if_neg hhit]

end

/-- Settles O48: the engine flips the covered pixels and reports whether one of them was set. -/
theorem drwXorsTheSprite : Obligations.DrwXorsTheSprite := by
  refine ⟨rowDecodesTo_of_group fun _ => decode_of_groupD, fun x y n s hwf =>
    ⟨fun hfit => ?draw, fun hn hout => ?error⟩⟩
  case draw =>
    exact ⟨_, exec_drw_of_fit x y hfit,
      fun _ _ => ⟨pixel_drawnState_of_covers hwf, pixel_drawnState_of_not_covers hwf⟩,
      fun ⟨_, _, hcov, hset⟩ => vf_drawnState_of_hit hwf hcov hset, vf_drawnState_of_no_hit hwf, rfl, rfl, rfl,
      (frameExcept_draw s _ _).nextInstr⟩
  case error => exact exists_memoryOutOfRange (i := .drw x y n) hn hout

/-- A draw leaves the registers other than VF as they are. -/
theorem getV_drawnState {r : Reg} (x y : Reg) (n : Nat) (s : State) (hr : r ≠ vf) :
    (drawnState x y n s).getV r = s.getV r :=
  State.getV_setV_other _ _ hr

/-- The state a second draw starts from: what the first has left, with any register file. -/
def redrawState (x y : Reg) (n : Nat) (s : State) (v : Vector Byte 16) : State :=
  { drawnState x y n s with v := v }

/-- Settles O49: both draws cover the same pixels, and flipping twice is no change. -/
theorem drawingTwiceRestoresTheScreen : Obligations.DrawingTwiceRestoresTheScreen := by
  intro x y n s hwf hfit
  refine ⟨_, exec_drw_of_fit x y hfit, getV_drawnState x y n s, getV_drawnState x y n s, fun v hx hy => ?_⟩
  have hcovers : Covers x y n (redrawState x y n s v) = Covers x y n s := covers_congr n rfl rfl hx hy
  refine ⟨_, exec_drw_of_fit (s := redrawState x y n s v) x y hfit, fun py px => ?restored, ?hit, fun hset => ?miss⟩
  case restored =>
    by_cases hcov : Covers x y n s py px
    · rw [pixel_drawnState_of_covers hwf (hcovers ▸ hcov)]
      exact (congrArg not (pixel_drawnState_of_covers hwf hcov)).trans (Bool.not_not _)
    · rw [pixel_drawnState_of_not_covers hwf (hcovers ▸ hcov)]
      exact pixel_drawnState_of_not_covers hwf hcov
  case hit =>
    rintro ⟨py, px, hcov, hclear⟩
    refine vf_drawnState_of_hit hwf (hcovers ▸ hcov) ?_ (py := py) (px := px)
    exact (pixel_drawnState_of_covers hwf hcov).trans (congrArg not hclear)
  case miss =>
    refine vf_drawnState_of_no_hit hwf fun py px hcov => ?_
    rw [hcovers] at hcov
    exact (pixel_drawnState_of_covers hwf hcov).trans (congrArg not (hset py px hcov))

end Sys2Proof.Machine
end
